-- ==== Sys2Proof/Word.lean ====
section
/-! DEFINITION. The word types of the Hyperspace audio block. -/

namespace Sys2Proof

/-- A byte: `masterVolume`, `out`, a raw amplitude, one byte of the sound-effect ROM image. -/
abbrev Byte := BitVec 8

/-- A 16-bit value: a phase, the LFSR, a note word, a pitch-ROM entry. -/
abbrev Half := BitVec 16

/-- A 32-bit command word or record header (30_encoding.md R70, 20_memory.md R53). -/
abbrev Word := BitVec 32

end Sys2Proof
end

