-- ==== Sys2Proof/Syntax.lean ====
section
/-! DEFINITION. The command set HSA-CMD 1: one constructor per row of the opcode table (30_encoding.md R74). -/

namespace Sys2Proof

/-- A command. Its operands are the fields the formats name (R70 to R73). Bits the formats mark
reserved are ignored (R75) and are no operand (log 18). -/
inductive Instr where
  /-- NOP, opcode 0 (42_mixer.md R147). -/
  | nop
  /-- STOP ch, format T with SFX = 0xFFFF (41_sequencer.md R118). -/
  | stop (ch : BitVec 8)
  /-- STOPALL, format T with SFX = 0xFFFE. The CH field is present and ignored (R119). -/
  | stopall (ch : BitVec 8)
  /-- TRIGGER sfx, ch, format T with SFX[15] = 0: the index is SFX[14:0] (R116). -/
  | trigger (ch : BitVec 8) (sfx : BitVec 15)
  /-- The reserved trigger, format T with SFX in 0x8000..0xFFFD (R117). -/
  | rsvdTrig (ch : BitVec 8) (sfx : BitVec 16)
  /-- TICK, opcode 2 (R121). -/
  | tick
  /-- SAMPLE, opcode 3 (R141). -/
  | sample
  /-- SETVOL level, format V (R146). -/
  | setvol (level : BitVec 8)
  /-- Reserved opcode 5 (R148). -/
  | rsvdOp5
  /-- Reserved opcodes 6 and 7 (R148). -/
  | rsvdOp6_7 (op : BitVec 4)
  /-- Reserved opcodes 8 to 15 (R148). -/
  | rsvdOp8_F (op : BitVec 4)
  deriving DecidableEq, Repr

end Sys2Proof
end

