-- ==== Sys2Proof/WellFormed.lean ====
section
/-! DEFINITION. Which terms of `Instr` are commands the encoding can express (30_encoding.md R74). -/

namespace Sys2Proof

/-- The operand ranges that the field widths do not already force: the reserved trigger's SFX lies in
0x8000..0xFFFD, and each reserved-opcode row has the opcodes R74 gives it. -/
def Instr.wellFormed : Instr → Bool
  | .nop => true
  | .stop _ => true
  | .stopall _ => true
  | .trigger _ _ => true
  | .rsvdTrig _ sfx => decide (0x8000 ≤ sfx.toNat) && decide (sfx.toNat ≤ 0xFFFD)
  | .tick => true
  | .sample => true
  | .setvol _ => true
  | .rsvdOp5 => true
  | .rsvdOp6_7 op => decide (6 ≤ op.toNat) && decide (op.toNat ≤ 7)
  | .rsvdOp8_F op => decide (8 ≤ op.toNat)

end Sys2Proof
end

