-- ==== Sys2Proof/Decode.lean ====
section
/-! DEFINITION. The decoder of command words (30_encoding.md R70 to R79), total on words and on bytes,
and after it the encoder (R80). -/

namespace Sys2Proof

/-- The opcode field `OP = w[31:28]`, the same in every format (R70). -/
def fieldOp (w : Word) : BitVec 4 := w.extractLsb' 28 4

/-- Format T: the channel index `CH = w[23:16]` (R70). -/
def fieldCh (w : Word) : BitVec 8 := w.extractLsb' 16 8

/-- Format T: the sound-effect index `SFX = w[15:0]` (R70). -/
def fieldSfx (w : Word) : BitVec 16 := w.extractLsb' 0 16

/-- Format V: the master volume `LEVEL = w[7:0]` (R70). -/
def fieldLevel (w : Word) : BitVec 8 := w.extractLsb' 0 8

/-- Opcode 1: the rows of R74 that look at SFX, top to bottom. -/
def decodeFormatT (w : Word) : Instr :=
  if fieldSfx w = 0xFFFF#16 then .stop (fieldCh w)
  else if fieldSfx w = 0xFFFE#16 then .stopall (fieldCh w)
  else if (fieldSfx w).msb = false then .trigger (fieldCh w) ((fieldSfx w).setWidth 15)
  else .rsvdTrig (fieldCh w) (fieldSfx w)

/-- The opcode map R74. Every word decodes (R76). -/
def decode (w : Word) : Instr :=
  match (fieldOp w).toNat with
  | 0 => .nop
  | 1 => decodeFormatT w
  | 2 => .tick
  | 3 => .sample
  | 4 => .setvol (fieldLevel w)
  | 5 => .rsvdOp5
  | 6 => .rsvdOp6_7 (fieldOp w)
  | 7 => .rsvdOp6_7 (fieldOp w)
  | _ => .rsvdOp8_F (fieldOp w)

/-- Why a byte sequence holds no command. -/
inductive DecodeReject where
  /-- Fewer than four bytes: a command is one 32-bit word (R70). -/
  | truncated
  deriving DecidableEq, Repr

/-- The word of four bytes, the least significant byte first (20_memory.md R59). -/
def wordOfBytes (b0 b1 b2 b3 : Byte) : Word := b3 ++ b2 ++ b1 ++ b0

/-- The command at the front of a byte sequence, with the bytes after it. -/
def decodeBytes : List Byte → Except DecodeReject (Instr × List Byte)
  | b0 :: b1 :: b2 :: b3 :: rest => .ok (decode (wordOfBytes b0 b1 b2 b3), rest)
  | _ => .error .truncated

/-- The bytes of a word as the window stores them, the least significant byte first (R59). -/
def bytesOfWord (w : Word) : List Byte :=
  [w.extractLsb' 0 8, w.extractLsb' 8 8, w.extractLsb' 16 8, w.extractLsb' 24 8]

/-- The host's question: what the decoder reads from the command whose bits are `w`, of which the table
gives the low `nbits` (the bits above are zero). -/
def decodeTableWord (nbits w : Nat) : Option Instr :=
  match decodeBytes (bytesOfWord (BitVec.ofNat 32 (w % 2 ^ nbits))) with
  | .ok (i, _) => some i
  | .error _ => none

/-- One row of the opcode table: the words `w` with `w &&& mask = value` (30_encoding.md R74). -/
structure Row where
  mnemonic : String
  value : Word
  mask : Word
  deriving DecidableEq, Repr

/-- The opcode table, in its own order, which is the decode order (R74). -/
def opcodeTable : List Row :=
  [ ⟨"NOP", 0x00000000#32, 0xF0000000#32⟩,
    ⟨"STOP", 0x1000FFFF#32, 0xF000FFFF#32⟩,
    ⟨"STOPALL", 0x1000FFFE#32, 0xF000FFFF#32⟩,
    ⟨"TRIGGER", 0x10000000#32, 0xF0008000#32⟩,
    ⟨"RSVD_TRIG", 0x10008000#32, 0xF0008000#32⟩,
    ⟨"TICK", 0x20000000#32, 0xF0000000#32⟩,
    ⟨"SAMPLE", 0x30000000#32, 0xF0000000#32⟩,
    ⟨"SETVOL", 0x40000000#32, 0xF0000000#32⟩,
    ⟨"RSVD_OP5", 0x50000000#32, 0xF0000000#32⟩,
    ⟨"RSVD_OP6_7", 0x60000000#32, 0xE0000000#32⟩,
    ⟨"RSVD_OP8_F", 0x80000000#32, 0x80000000#32⟩ ]

/-- Whether a word matches a row. -/
def Row.matchesWord (r : Row) (w : Word) : Bool := w &&& r.mask == r.value

/-- The place of a command's row in the opcode table. -/
def Instr.rowIndex : Instr → Nat
  | .nop => 0
  | .stop _ => 1
  | .stopall _ => 2
  | .trigger _ _ => 3
  | .rsvdTrig _ _ => 4
  | .tick => 5
  | .sample => 6
  | .setvol _ => 7
  | .rsvdOp5 => 8
  | .rsvdOp6_7 _ => 9
  | .rsvdOp8_F _ => 10

/-- The bits of a word that its format marks reserved, ignored (R70, R75). -/
def reservedBits (w : Word) : Word :=
  if fieldOp w = 1#4 then 0x0F000000#32
  else if fieldOp w = 4#4 then 0x0FFFFF00#32
  else 0x0FFFFFFF#32

/-- Format T's word with the reserved bits zero: `0x10000000 | ch << 16 | sfx` (R80). -/
def encodeFormatT (ch : BitVec 8) (sfx : BitVec 16) : Word :=
  0x10000000#32 ||| (ch.setWidth 32 <<< 16) ||| sfx.setWidth 32

/-- The word of a command, its reserved bits zero (R75, R80). -/
def encode : Instr → Word
  | .nop => 0x00000000#32
  | .stop ch => encodeFormatT ch 0xFFFF#16
  | .stopall ch => encodeFormatT ch 0xFFFE#16
  | .trigger ch sfx => encodeFormatT ch (sfx.setWidth 16)
  | .rsvdTrig ch sfx => encodeFormatT ch sfx
  | .tick => 0x20000000#32
  | .sample => 0x30000000#32
  | .setvol level => 0x40000000#32 ||| level.setWidth 32
  | .rsvdOp5 => 0x50000000#32
  | .rsvdOp6_7 op => op.setWidth 32 <<< 28
  | .rsvdOp8_F op => op.setWidth 32 <<< 28

end Sys2Proof
end

