-- ==== Sys2Proof/Config.lean ====
section
/-! DEFINITION. The fixed constants (00_scope.md R6, R7), the default pitch table (20_memory.md R51),
and what an implementation or the platform fixes and the spec leaves open, as constants with no body. -/

namespace Sys2Proof

/-- The contents of the two ROMs: the parameters `PITCH_HZ`, `NUM_SFX` and `SFX_ROM`
(00_scope.md R9 to R11). `sfx` is the byte image of 20_memory.md R56, zero bytes left out (log 4). -/
structure Roms where
  pitch : List Half
  numSfx : Nat
  sfx : List Host.Cell
  deriving DecidableEq, Repr, Inhabited

namespace Config

/-- `SAMPLE_RATE`, in Hz (R6). -/
def sampleRate : Nat := 22050

/-- One cycle of the phase accumulator: `PHASE_BITS` is 16 (R6). -/
def phaseModulus : Nat := 65536

/-- `NUM_CH` (R6, conflict C4). -/
def numCh : Nat := 4

/-- `PITCH_ENTRIES` (R6). -/
def pitchEntries : Nat := 64

/-- `NUM_WAVE` (R6). -/
def numWave : Nat := 8

/-- `NOTE_FLOOR`, in samples (R6). -/
def noteFloor : Nat := 183

/-- `SPEED_MULT`, samples per speed unit (R6). -/
def speedMult : Nat := 183

/-- `FRAME_RATE`, in Hz (R6). -/
def frameRate : Nat := 60

/-- `NOTES_PER_SFX` (R6). -/
def notesPerSfx : Nat := 32

/-- `LFSR_SEED` (R6). -/
def lfsrSeed : Half := 0xACE1#16

/-- `TICK_INC`: `SAMPLE_RATE / FRAME_RATE` truncated, which is 367 (R7). -/
def tickInc : Nat := sampleRate / frameRate

/-- The bound of `NUM_SFX` (R9). -/
def maxSfx : Nat := 32768

/-- Bytes of one record of the sound-effect ROM image (20_memory.md R56). -/
def recordBytes : Nat := 68

/-- Bytes of a record before its note word 0: the header word (R56). -/
def headerBytes : Nat := 4

/-- Offset of CMD in the register window (R58). -/
def cmdOffset : Nat := 0

/-- Offset of OUT in the register window (R58). -/
def outOffset : Nat := 4

/-- Bytes of the register window (R58, R61). -/
def windowBytes : Nat := 8

/-- The default pitch ROM, entries 0 to 31 (20_memory.md R51, from general knowledge by its own words). -/
def defaultPitchLow : List Half :=
  [65, 69, 73, 78, 82, 87, 92, 98, 104, 110, 117, 123, 131, 139, 147, 156,
   165, 175, 185, 196, 208, 220, 233, 247, 262, 277, 294, 311, 330, 349, 370, 392]

/-- The default pitch ROM, entries 32 to 63 (R51). -/
def defaultPitchHigh : List Half :=
  [415, 440, 466, 494, 523, 554, 587, 622, 659, 698, 740, 784, 831, 880, 932, 988,
   1047, 1109, 1175, 1245, 1319, 1397, 1480, 1568, 1661, 1760, 1865, 1976, 2093, 2217, 2349, 2489]

/-- The default `PITCH_HZ` of R51. The model does not assume it: it is used by tests and by claims that name it. -/
def defaultPitch : List Half := defaultPitchLow ++ defaultPitchHigh

/-- What the platform installs as `PITCH_HZ`, `NUM_SFX` and `SFX_ROM`: open (93_implementation_defined.md
section 2). DESIGN CHOICE, safe (log 1): nothing constrains it, `Machine/Rom.lean` keeps what is legal. -/
opaque rawRoms : Roms

/-- `HSA_BASE`, the platform's base address of the register window (R58): open. DESIGN CHOICE, safe (log 15). -/
opaque hsaBase : Nat

/-- Which of the agents that have something pending is served at a given turn: the interleaving that
20_memory.md R63 and 60_exceptions.md R163 leave open. DESIGN CHOICE, safe (log 7). -/
opaque arbiter : Nat → Nat

/-- What a read that runs past the end of the register window returns: no rule says. DESIGN CHOICE, safe (log 11). -/
opaque openRead : Nat → Word

end Config

end Sys2Proof
end

