-- ==== Sys2Proof/Machine/Rom.lean ====
section
/-! DEFINITION. The two ROMs: the byte image of the sound-effect ROM as a canonical list of cells, the
words read from it, the pitch ROM, and which contents are legal (20_memory.md R51 to R57). -/

namespace Sys2Proof.Machine

/-- A byte memory: (address, byte) pairs, addresses strictly rising, no entry equal to what an unlisted
address reads as. -/
abbrev Memory := List Host.Cell

/-- What an unlisted address of the image reads as. Every image has exactly one canonical list (log 4). -/
def Memory.unlisted : Byte := 0x00#8

/-- The byte at an address. -/
def Memory.read : Memory → Nat → Byte
  | [], _ => Memory.unlisted
  | (k, v) :: rest, a => if k = a then v else Memory.read rest a

/-- Writing one byte keeps the canonical form: writing what an unlisted address reads as removes the entry. -/
def Memory.write : Memory → Nat → Byte → Memory
  | [], a, v => if v = Memory.unlisted then [] else [(a, v)]
  | (k, x) :: rest, a, v =>
    if a < k then
      if v = Memory.unlisted then (k, x) :: rest else (a, v) :: (k, x) :: rest
    else if a = k then
      if v = Memory.unlisted then rest else (a, v) :: rest
    else (k, x) :: Memory.write rest a v

/-- Canonical from an address on: every listed address is at least `lo`, they rise strictly, and no
entry holds the unlisted byte. -/
def Memory.wfFrom : Nat → Memory → Bool
  | _, [] => true
  | lo, (k, v) :: rest => decide (lo ≤ k) && decide (v ≠ Memory.unlisted) && Memory.wfFrom (k + 1) rest

/-- The canonical form. -/
def Memory.wf (m : Memory) : Bool := Memory.wfFrom 0 m

/-- Writing bytes at successive addresses: how an image is built (R56). -/
def Memory.load : Memory → Nat → List Byte → Memory
  | m, _, [] => m
  | m, a, v :: vs => Memory.load (Memory.write m a v) (a + 1) vs

/-- The 16-bit word at an address, least significant byte first (R56). -/
def Memory.half (m : Memory) (a : Nat) : Half := Memory.read m (a + 1) ++ Memory.read m a

/-- The 32-bit word at an address, least significant byte first (R56). -/
def Memory.word (m : Memory) (a : Nat) : Word := Memory.half m (a + 2) ++ Memory.half m a

/-- `PitchRom(k)`, defined for k in 0..63 (R52): every caller tests `pitch < 64` first. -/
def Roms.pitchHz (r : Roms) (k : Nat) : Nat := (r.pitch.getD k 0#16).toNat

/-- `SfxHeader(s)` as a word: record `s` starts at byte `68 * s` (R53, R56). -/
def Roms.header (r : Roms) (s : Nat) : Word := Memory.word r.sfx (Config.recordBytes * s)

/-- `SfxNote(s, k)`: note word `k` of record `s` (R54, R56). -/
def Roms.note (r : Roms) (s k : Nat) : Half :=
  Memory.half r.sfx (Config.recordBytes * s + Config.headerBytes + 2 * k)

/-- Entries rise with the index, two equal neighbours allowed (R52, log 3). -/
def pitchRising : List Half → Bool
  | [] => true
  | [_] => true
  | a :: b :: rest => decide (a.toNat ≤ b.toNat) && pitchRising (b :: rest)

/-- The facts R52 states of any `PITCH_HZ`: 64 entries in 1..22049, rising, entry 0 is 65 and entry 63 is 2489. -/
def pitchLegal (p : List Half) : Bool :=
  decide (p.length = Config.pitchEntries) && pitchRising p
    && decide (p.getD 0 0#16 = 65#16) && decide (p.getD 63 0#16 = 2489#16)
    && p.all (fun h => decide (1 ≤ h.toNat) && decide (h.toNat ≤ 22049))

/-- Every listed byte of the image lies inside its `NUM_SFX` records (R56). -/
def imageInside (n : Nat) (m : Memory) : Bool := m.all (fun c => decide (c.1 < Config.recordBytes * n))

/-- Legal ROM contents: R52 for the pitch ROM, `1 <= NUM_SFX <= 32768` (R9), an image of that many records. -/
def Roms.wf (r : Roms) : Bool :=
  pitchLegal r.pitch && decide (1 ≤ r.numSfx) && decide (r.numSfx ≤ Config.maxSfx)
    && Memory.wf r.sfx && imageInside r.numSfx r.sfx

/-- Legal contents that stand in when the platform's are not legal (log 2). -/
def Roms.blank : Roms := { pitch := Config.defaultPitch, numSfx := 1, sfx := [] }

/-- The ROMs the platform installed: whatever legal contents it chose (R183 step 1). DESIGN CHOICE, safe
(log 1, log 2): nothing says which. -/
def Roms.installed : Roms := if Roms.wf Config.rawRoms then Config.rawRoms else Roms.blank

/-- One record before it is laid out as bytes: a header word and note words 0 to 31 (R53, R54). -/
structure SfxRecord where
  header : Word
  notes : List Half
  deriving DecidableEq, Repr

/-- A 16-bit word's bytes in the image's order (R56). -/
def bytesOfHalf (h : Half) : List Byte := [h.extractLsb' 0 8, h.extractLsb' 8 8]

/-- A record's 68 bytes: the header word, then note words 0 to 31, notes not given being 0 (R56). -/
def SfxRecord.bytes (r : SfxRecord) : List Byte :=
  bytesOfHalf (r.header.extractLsb' 0 16) ++ bytesOfHalf (r.header.extractLsb' 16 16)
    ++ (List.range Config.notesPerSfx).flatMap (fun k => bytesOfHalf (r.notes.getD k 0#16))

/-- The ROM image of a list of records: record `s` starts at byte `68 * s` (R56). -/
def imageBytes (recs : List SfxRecord) : List Byte := recs.flatMap SfxRecord.bytes

/-- The ROMs built from a pitch table and a list of records. -/
def Roms.ofRecords (pitch : List Half) (recs : List SfxRecord) : Roms :=
  { pitch := pitch, numSfx := recs.length, sfx := Memory.load [] 0 (imageBytes recs) }

end Sys2Proof.Machine
end

