-- ==== Sys2Proof/Machine/State.lean ====
section
/-! DEFINITION. The machine's state as plain data, its reset value, and the reasons a step can stop. -/

namespace Sys2Proof.Machine

/-- One channel: the per-channel rows of 10_state.md R20. -/
structure Channel where
  /-- 1 when the channel is bound to a record (R26). -/
  bound : Bool
  /-- The record it is bound to, meaningless while `bound` is 0 (R26). -/
  sfx : BitVec 15
  /-- The current note, 0 to 31 (R28). -/
  noteIndex : BitVec 5
  /-- Samples counted within the current note (R29). -/
  sampleCount : BitVec 16
  /-- The note duration in samples (R30). -/
  samplesPerNote : BitVec 16
  /-- The phase accumulator (R31). -/
  phase : BitVec 16
  /-- The phase step of one sample (R32). -/
  phaseIncrement : BitVec 16
  /-- The current note's volume (R33). -/
  volume : BitVec 3
  /-- The current note's waveform id (R33). -/
  waveform : BitVec 3
  /-- 1 in state Playing, 0 in state Idle (R34). -/
  active : Bool
  /-- The record loops, fixed at the last TRIGGER (R35). -/
  looping : Bool
  deriving DecidableEq, Repr

/-- The pool of exactly four channels (R25). -/
structure ChannelFile where
  c0 : Channel
  c1 : Channel
  c2 : Channel
  c3 : Channel
  deriving DecidableEq, Repr

/-- The block's whole state: the table of R20 and nothing else. -/
structure Block where
  ch : ChannelFile
  /-- Scales the mix (R36). -/
  masterVolume : BitVec 8
  /-- The shared noise register (R37). -/
  lfsr : BitVec 16
  /-- The result of the last SAMPLE (R38). -/
  out : BitVec 8
  deriving DecidableEq, Repr

/-- Whether the block has ever been reset, and the level of its reset input (70_reset_and_hazards.md R180 to R182). -/
inductive Power where
  /-- Before the first reset: the block's fields hold no value (R42, R182). -/
  | unreset
  /-- The reset input is asserted (R181). -/
  | asserted
  /-- Reset has been asserted and released: the block takes commands (R180). -/
  | released
  deriving DecidableEq, Repr

/-- The two host contexts (60_exceptions.md R170). -/
inductive Context where
  | sample
  | frame
  deriving DecidableEq, Repr

/-- Whoever can act on the block: a host context through the bus, the platform through the reset input. -/
inductive Agent where
  | context (c : Context)
  | platform
  deriving DecidableEq, Repr

/-- Width of a bus access (20_memory.md R59). -/
inductive Width where
  | w8
  | w16
  | w32
  deriving DecidableEq, Repr

/-- One access that reached the 8-byte register window, at an offset from `HSA_BASE` (R58). -/
inductive Access where
  | read (off : Fin 8) (width : Width)
  | write (off : Fin 8) (width : Width) (data : Word)
  deriving DecidableEq, Repr

/-- An edge of the reset input (R180, R181). -/
inductive ResetEdge where
  | assert
  | release
  deriving DecidableEq, Repr

/-- The host's end of the window for one context. The MODEL's own, no register of the block. -/
structure Port where
  /-- Accesses issued and not yet accepted, oldest first (20_memory.md R63). -/
  pending : List Access
  /-- What the last read access returned, none before the first. -/
  readData : Option Word
  deriving DecidableEq, Repr

/-- The machine: the block, the parameters of its step relation (10_state.md R43), its reset input and
what the agents have in flight. -/
structure State where
  /-- The block's registers (R20). -/
  block : Block
  /-- The ROMs, which no step changes (R43, 20_memory.md R66). -/
  roms : Roms
  /-- Reset history and the reset input's level. -/
  power : Power
  /-- The sample context's end of the window. -/
  sample : Port
  /-- The frame context's end of the window. -/
  frame : Port
  /-- Edges of the reset input still to come, oldest first. -/
  platform : List ResetEdge
  /-- The model's own counter: the argument of the free values. -/
  turn : Nat
  deriving DecidableEq, Repr

/-- Faults: there are none. 60_exceptions.md R160: the block raises no exception and has no fault state,
and every command completes. No step of the model can answer a fault. -/
inductive Fault where
  deriving DecidableEq, Repr

/-- Why a step is refused. -/
inductive Refusal where
  /-- An instruction with no meaning yet. No arm of `exec` raises it: every command is modelled. Safe. -/
  | notModelled (mnemonic : String)
  /-- A command, or a read of OUT, before the first reset (10_state.md R42, 70_reset_and_hazards.md
  R182). Raised when the access is accepted, never by a command's meaning. Safe. -/
  | beforeReset
  deriving DecidableEq, Repr

/-- What executing a command or one step of the machine answers. -/
abbrev Result := Host.Outcome State Fault Refusal

/-- A channel right after reset (10_state.md R41). -/
def Channel.reset : Channel :=
  { bound := false, sfx := 0, noteIndex := 0, sampleCount := 0, samplesPerNote := 0, phase := 0,
    phaseIncrement := 0, volume := 0, waveform := 0, active := false, looping := false }

/-- The block right after reset (R41). -/
def Block.reset : Block :=
  { ch := ⟨Channel.reset, Channel.reset, Channel.reset, Channel.reset⟩
    masterVolume := 255
    lfsr := Config.lfsrSeed
    out := 128 }

/-- A port with nothing in flight. DESIGN CHOICE (log 22): the host's side, not the block's. -/
def Port.idle : Port := { pending := [], readData := none }

/-- The machine right after reset with given ROMs, nothing issued yet (70_reset_and_hazards.md R180, R182). -/
def State.resetWith (r : Roms) : State :=
  { block := Block.reset, roms := r, power := .released, sample := Port.idle, frame := Port.idle,
    platform := [], turn := 0 }

/-- The machine right after reset, with whatever legal ROMs the platform installed (R183, log 1). -/
def State.reset : State := State.resetWith Roms.installed

/-- The machine at power-on, before the first reset, with given ROMs (R42, R182). The block holds no value:
nothing reads `block` until a reset overwrites it, and the reset values stand in it (log 10). -/
def State.powerOn (r : Roms) : State := { State.resetWith r with power := .unreset }

end Sys2Proof.Machine
end

