-- ==== Sys2Proof/Machine/Operands.lean ====
section
/-! DEFINITION. The operand forms: command operands (30_encoding.md R71 to R73), header and note fields
(20_memory.md R53, R54, 41_sequencer.md R110). -/

namespace Sys2Proof.Machine

/-- The channel a CH operand names: 0 to 3, or none for 4 to 255 (R71, 41_sequencer.md R115). -/
def channelIndex (ch : BitVec 8) : Option (Fin 4) :=
  if h : ch.toNat < 4 then some ⟨ch.toNat, h⟩ else none

/-- `sfx = sext_32(w[15:0])`, signed (R71). -/
def signedSfx (sfx : BitVec 16) : Int := sfx.toInt

/-- Header field `speed`, [7:0] (R53). -/
def headerSpeed (h : Word) : Nat := (h.extractLsb' 0 8).toNat

/-- Header field `loopStart`, [15:8] (R53). -/
def headerLoopStart (h : Word) : Nat := (h.extractLsb' 8 8).toNat

/-- Header field `loopEnd`, [23:16] (R53). Bits [31:24] are read by nothing (R57). -/
def headerLoopEnd (h : Word) : Nat := (h.extractLsb' 16 8).toNat

/-- Note field `pitch`, [6:0] (R54, R110). -/
def notePitch (n : Half) : Nat := (n.extractLsb' 0 7).toNat

/-- Note field `waveform`, [9:7] (R54, R110). -/
def noteWaveform (n : Half) : BitVec 3 := n.extractLsb' 7 3

/-- Note field `volume`, [12:10] (R54, R110). The `effect` field [15:13] is discarded (R124). -/
def noteVolume (n : Half) : BitVec 3 := n.extractLsb' 10 3

/-- The three classes of a note (R111). -/
inductive NoteClass where
  | sounding
  | rest
  | dead
  deriving DecidableEq, Repr

/-- The class of a note word: exactly one of the three (R111). -/
def noteClass (n : Half) : NoteClass :=
  if noteVolume n = 0#3 then .rest
  else if notePitch n < Config.pitchEntries then .sounding
  else .dead

end Sys2Proof.Machine
end

