-- ==== Sys2Proof/Machine/Flags.lean ====
section
/-! DEFINITION. The status bits. The block has no condition codes: its only status bits are `active` and
`looping`, one pair per channel (10_state.md R23). -/

namespace Sys2Proof.Machine

/-- `looping` at a TRIGGER: `loopEnd > loopStart` of the record's header (10_state.md R35, 41_sequencer.md R116). -/
def loopingFlag (header : Word) : Bool := decide (headerLoopStart header < headerLoopEnd header)

/-- `active` after a TRIGGER that loads this note 0: only a Sounding note starts the voice (R116). -/
def activeAfterTrigger (n : Half) : Bool := decide (noteClass n = .sounding)

/-- `active` after a TICK that loads this note into an active channel: a Dead note stops it, a Rest
keeps it Playing (R121). -/
def activeAfterTick (n : Half) : Bool := decide (noteClass n ≠ .dead)

/-- A channel contributes to a SAMPLE exactly when it is active and its volume is above 0 (42_mixer.md R142). -/
def contributes (c : Channel) : Bool := c.active && decide (c.volume ≠ 0#3)

end Sys2Proof.Machine
end

