-- ==== Sys2Proof/Machine/Ops.lean ====
section
/-! DEFINITION. The operations the commands share: arithmetic (00_scope.md R12), the channel file, note
arithmetic (41_sequencer.md R112, R114), the update of a state's block, and reset (70_reset_and_hazards.md
R180, R181). The block takes no exception and returns from none (60_exceptions.md R160, R164, R165), so no
operation for either exists: reset is the only way its state changes other than by a command. -/

namespace Sys2Proof.Machine

/-- `tdiv(a, b)`: division truncated toward zero (R12). -/
def tdiv (a b : Int) : Int := Int.tdiv a b

/-- `clamp(v, lo, hi) = min(max(v, lo), hi)` (R12). -/
def clamp (v lo hi : Int) : Int := min (max v lo) hi

/-- `PhaseInc(pitch) = udiv(PitchRom(pitch) * 65536, 22050)`, the product exact, stored in 16 bits (R112). -/
def phaseInc (r : Roms) (pitch : Nat) : BitVec 16 :=
  BitVec.ofNat 16 (Roms.pitchHz r pitch * Config.phaseModulus / Config.sampleRate)

/-- `SamplesPerNote(speed) = max(183, speed * 183)` (R114). -/
def samplesPerNoteOf (speed : Nat) : Nat := max Config.noteFloor (speed * Config.speedMult)

/-- `ch[i]`. -/
def ChannelFile.get (f : ChannelFile) : Fin 4 → Channel
  | 0 => f.c0
  | 1 => f.c1
  | 2 => f.c2
  | 3 => f.c3

/-- `ch[i] <- c`. -/
def ChannelFile.set (f : ChannelFile) (i : Fin 4) (c : Channel) : ChannelFile :=
  match i with
  | 0 => { f with c0 := c }
  | 1 => { f with c1 := c }
  | 2 => { f with c2 := c }
  | 3 => { f with c3 := c }

/-- The same update of every channel, `for i in 0..3`. -/
def ChannelFile.map (f : ChannelFile) (g : Channel → Channel) : ChannelFile :=
  { c0 := g f.c0, c1 := g f.c1, c2 := g f.c2, c3 := g f.c3 }

/-- The channels in ascending order. -/
def ChannelFile.toList (f : ChannelFile) : List Channel := [f.c0, f.c1, f.c2, f.c3]

/-- Channel `i` of the block. -/
def Block.channel (b : Block) (i : Fin 4) : Channel := b.ch.get i

/-- An update of channel `i` alone. -/
def Block.updateChannel (b : Block) (i : Fin 4) (g : Channel → Channel) : Block :=
  { b with ch := b.ch.set i (g (b.ch.get i)) }

/-- An update of every channel and of nothing else. -/
def Block.mapChannels (b : Block) (g : Channel → Channel) : Block := { b with ch := b.ch.map g }

/-- The state with another block: what a command may change. -/
def State.withBlock (s : State) (b : Block) : State := { s with block := b }

/-- Running a command on the block alone: every command ends in a next state (60_exceptions.md R160). -/
def runOnBlock (s : State) (f : Roms → Block → Block) : Result :=
  .next (s.withBlock (f s.roms s.block))

/-- An edge of the reset input. Asserting it overwrites every field of the block with its reset value
(R180), whatever the block held. Releasing it ends a reset. A release with no reset before it is no reset (log 9). -/
def State.resetEdge (s : State) : ResetEdge → State
  | .assert => { s with block := Block.reset, power := .asserted }
  | .release =>
    match s.power with
    | .unreset => s
    | .asserted => { s with power := .released }
    | .released => s

end Sys2Proof.Machine
end

