-- ==== Sys2Proof/Machine/Bus.lean ====
section
/-! DEFINITION. The register window (20_memory.md R58 to R61), the order in which accesses are accepted
(R63, 60_exceptions.md R163), and the acceptance of one access in each state of the reset input
(70_reset_and_hazards.md R181, R182). -/

namespace Sys2Proof.Machine

/-- Bytes of an access. -/
def Width.bytes : Width → Nat
  | .w8 => 1
  | .w16 => 2
  | .w32 => 4

/-- The low bits of a value that an access of a width carries, zero-extended. -/
def Width.truncate (wd : Width) (v : Word) : Word :=
  match wd with
  | .w8 => (v.setWidth 8).setWidth 32
  | .w16 => (v.setWidth 16).setWidth 32
  | .w32 => v

/-- Where a host address falls in the 8-byte window at `HSA_BASE`, if it does (R58, R61, log 15): the first
byte of an access decides (log 14). -/
def windowOffset (addr : Nat) : Option (Fin 8) :=
  if h : Config.hsaBase ≤ addr ∧ addr < Config.hsaBase + 8 then
    some ⟨addr - Config.hsaBase, by omega⟩
  else none

/-- The end of the window that belongs to a context. -/
def State.port (s : State) : Context → Port
  | .sample => s.sample
  | .frame => s.frame

/-- The state with a context's end of the window replaced. -/
def State.setPort (s : State) (c : Context) (p : Port) : State :=
  match c with
  | .sample => { s with sample := p }
  | .frame => { s with frame := p }

/-- A context issues an access that has reached the window: it waits behind that context's earlier ones (R63). -/
def State.enqueue (s : State) (c : Context) (a : Access) : State :=
  s.setPort c { s.port c with pending := (s.port c).pending ++ [a] }

/-- A context writes at a host address: outside the window the write does not reach the block (R58). -/
def State.hostWrite (s : State) (c : Context) (addr : Nat) (wd : Width) (data : Word) : State :=
  match windowOffset addr with
  | none => s
  | some off => s.enqueue c (.write off wd data)

/-- A context reads at a host address: outside the window the read does not reach the block (R58). -/
def State.hostRead (s : State) (c : Context) (addr : Nat) (wd : Width) : State :=
  match windowOffset addr with
  | none => s
  | some off => s.enqueue c (.read off wd)

/-- The write that issues a command: aligned, 32 bits wide, at CMD (R58, R59). -/
def commandWrite (w : Word) : Access := .write 0 .w32 w

/-- The command word of an access, if it issues one: only an aligned 32-bit write of CMD does (R59). -/
def Access.command : Access → Option Word
  | .write off wd data => if off.val = Config.cmdOffset ∧ wd = .w32 then some data else none
  | .read _ _ => none

/-- Whether an access reads any byte of OUT (R58). DESIGN CHOICE, safe (log 12): before the first reset, where R182
refuses an OUT read, a read that straddles CMD and OUT or runs past the window's end counts as one. -/
def Access.readsOut : Access → Bool
  | .read off wd => decide (Config.outOffset < off.val + wd.bytes)
  | .write _ _ _ => false

/-- The value OUT shows: `out`, and 128 while reset is asserted (R58, R181). -/
def State.outValue (s : State) : Byte :=
  match s.power with
  | .asserted => 128
  | .unreset => s.block.out
  | .released => s.block.out

/-- What a read returns. At OUT's offset, `out` zero-extended (R58, R59). Every other read in the window,
0 (R58, R59, 92_eei_decisions.md D29): within CMD, within OUT's upper bytes, or from CMD into OUT. A read
that runs past the window's end: no rule, a free value (log 11). -/
def State.readValue (s : State) (off : Fin 8) (wd : Width) : Word :=
  if off.val = Config.outOffset then s.outValue.setWidth 32
  else if off.val + wd.bytes ≤ Config.windowBytes then 0#32
  else wd.truncate (Config.openRead s.turn)

/-- The agents that have something pending. -/
def State.candidates (s : State) : List Agent :=
  (if s.sample.pending.isEmpty then [] else [.context .sample])
    ++ (if s.frame.pending.isEmpty then [] else [.context .frame])
    ++ (if s.platform.isEmpty then [] else [.platform])

/-- One agent of a list: the only one, or the one a choice number picks. Every agent of the list is
picked by some number (60_exceptions.md R163). -/
def pickAgent (choice : Nat) : List Agent → Option Agent
  | [] => none
  | [a] => some a
  | a :: b :: rest => (a :: b :: rest)[choice % (a :: b :: rest).length]?

/-- The agent served now. No context has priority: the choice is free (R163, log 7). -/
def State.granted (s : State) : Option Agent := pickAgent (Config.arbiter s.turn) s.candidates

/-- What the block finds at its window and at its reset input. -/
inductive Fetched where
  /-- Nothing is pending: the block waits (70_reset_and_hazards.md R180). -/
  | wait
  /-- An access or an edge was dealt with and issued no command. -/
  | served (s : State)
  /-- A command was accepted. -/
  | command (w : Word) (s : State)
  /-- An access that has no meaning before the first reset (R182). -/
  | refuse (r : Refusal)
  deriving DecidableEq, Repr

/-- Acceptance of one access of a context, already taken off its list. Before the first reset a command
or an OUT read is refused (R182). While reset is asserted a CMD write is ignored (R181). A write that
issues no command is ignored (R58, R59). A read changes nothing of the block (R60). -/
def State.accept (s : State) (c : Context) (a : Access) : Fetched :=
  match a, a.command with
  | _, some w =>
    match s.power with
    | .unreset => .refuse .beforeReset
    | .asserted => .served s
    | .released => .command w s
  | .write _ _ _, none => .served s
  | .read off wd, none =>
    if s.power = .unreset ∧ a.readsOut = true then .refuse .beforeReset
    else .served (s.setPort c { s.port c with readData := some (s.readValue off wd) })

/-- Taking an agent's oldest item off its list counts a turn. -/
def State.popPort (s : State) (c : Context) (rest : List Access) : State :=
  { s.setPort c { s.port c with pending := rest } with turn := s.turn + 1 }

/-- Taking the oldest edge of the reset input counts a turn. -/
def State.popEdge (s : State) (rest : List ResetEdge) : State :=
  { s with platform := rest, turn := s.turn + 1 }

/-- Serving one agent's oldest item. -/
def State.serve (s : State) : Agent → Fetched
  | .platform =>
    match s.platform with
    | [] => .wait
    | e :: rest => .served ((s.popEdge rest).resetEdge e)
  | .context c =>
    match (s.port c).pending with
    | [] => .wait
    | a :: rest => (s.popPort c rest).accept c a

/-- What the machine does next: one access or one edge, of the agent granted (20_memory.md R63). -/
def State.fetch (s : State) : Fetched :=
  match s.granted with
  | none => .wait
  | some a => s.serve a

/-- The word of the command whose bits are `w`, of which the low `nbits` are given (30_encoding.md R70). -/
def fetchWordOf (nbits w : Nat) : Word := BitVec.ofNat 32 (w % 2 ^ nbits)

/-- The machine about to accept one command written by the frame context and nothing else: reset is
released, that write is the oldest of its list, nothing else is pending (log 6). -/
def State.withCommand (s : State) (w : Word) : State :=
  { s with
    power := .released
    sample := { s.sample with pending := [] }
    frame := { s.frame with pending := commandWrite w :: s.frame.pending }
    platform := [] }

end Sys2Proof.Machine
end

