-- ==== Sys2Proof/Machine/Control.lean ====
section
/-! DEFINITION. SETVOL, NOP and the reserved opcodes (42_mixer.md R146 to R148). -/

namespace Sys2Proof.Machine

/-- `masterVolume <- level`: `out` is not recomputed (R146). -/
def Block.setVolume (b : Block) (level : BitVec 8) : Block := { b with masterVolume := level }

/-- SETVOL level (R146). -/
def execSetvol (level : BitVec 8) (s : State) : Result := runOnBlock s (fun _ b => b.setVolume level)

/-- NOP: no state change (R147). -/
def execNop (s : State) : Result := runOnBlock s (fun _ b => b)

/-- Reserved opcode 5: ignored (R148). -/
def execRsvdOp5 (s : State) : Result := runOnBlock s (fun _ b => b)

/-- Reserved opcodes 6 and 7: ignored (R148). -/
def execRsvdOp6_7 (_op : BitVec 4) (s : State) : Result := runOnBlock s (fun _ b => b)

/-- Reserved opcodes 8 to 15: ignored (R148). -/
def execRsvdOp8_F (_op : BitVec 4) (s : State) : Result := runOnBlock s (fun _ b => b)

end Sys2Proof.Machine
end

