-- ==== Sys2Proof/Machine/Waveforms.lean ====
section
/-! DEFINITION. The eight waveform generators, the shared LFSR, and the waveform-ROM view
(40_waveforms.md R90 to R101). -/

namespace Sys2Proof.Machine

/-- The eight generators (R90). -/
inductive Wave where
  | triangle
  | tiltedSaw
  | saw
  | square
  | pulse
  | organ
  | noise
  | phaser
  deriving DecidableEq, Repr

/-- The generator a 3-bit waveform id selects: all eight ids are defined (R90). -/
def waveOfId (w : BitVec 3) : Wave :=
  match w.toNat with
  | 0 => .triangle
  | 1 => .tiltedSaw
  | 2 => .saw
  | 3 => .square
  | 4 => .pulse
  | 5 => .organ
  | 6 => .noise
  | _ => .phaser

/-- `Tri(p)`: rising 0 to 255 over the first half of the cycle, falling over the second (R91). -/
def tri (p : BitVec 16) : Byte :=
  if p.toNat < 32768 then BitVec.ofNat 8 (p.toNat / 128) else BitVec.ofNat 8 ((65535 - p.toNat) / 128)

/-- `Saw(p) = p[15:8]` (R93). -/
def saw (p : BitVec 16) : Byte := p.extractLsb' 8 8

/-- `TSaw(p) = Saw(p)`: the formula is normative, not the name (R92, conflict C1). -/
def tsaw (p : BitVec 16) : Byte := saw p

/-- `Sq(p)`: 255 while the phase's high byte is below 128 (R94). -/
def squareWave (p : BitVec 16) : Byte := if (saw p).toNat < 128 then 255 else 0

/-- `Pulse(p)`: 255 while the phase's high byte is below 64 (R95, conflict C7). -/
def pulse (p : BitVec 16) : Byte := if (saw p).toNat < 64 then 255 else 0

/-- The truncated average of two amplitudes (R96, R98). -/
def average (a b : Byte) : Byte := BitVec.ofNat 8 ((a.toNat + b.toNat) / 2)

/-- `Organ(p)`: the average of the square at `p` and at `2p mod 65536` (R96). -/
def organ (p : BitVec 16) : Byte := average (squareWave p) (squareWave (BitVec.ofNat 16 (2 * p.toNat)))

/-- `Phaser(p)`: the average of the saw at `p` and at `p + 8192 mod 65536` (R98). -/
def phaser (p : BitVec 16) : Byte := average (saw p) (saw (p + 8192#16))

/-- The feedback bit of the LFSR: bits 0, 2, 3 and 5 (R97). -/
def lfsrBit (l : BitVec 16) : Bool :=
  ((l.getLsbD 0).xor (l.getLsbD 2)).xor ((l.getLsbD 3).xor (l.getLsbD 5))

/-- One step of the LFSR: `{b, lfsr[15:1]}` (R97). -/
def lfsrNext (l : BitVec 16) : BitVec 16 := BitVec.cons (lfsrBit l) (l.extractLsb' 1 15)

/-- The seven generators that are pure functions of the phase (R90). Noise is none of them. -/
def pureGen (w : Wave) (p : BitVec 16) : Option Byte :=
  match w with
  | .triangle => some (tri p)
  | .tiltedSaw => some (tsaw p)
  | .saw => some (saw p)
  | .square => some (squareWave p)
  | .pulse => some (pulse p)
  | .organ => some (organ p)
  | .noise => none
  | .phaser => some (phaser p)

/-- What one call of a generator gives: the amplitude and the LFSR after it. -/
structure GenResult where
  raw : Byte
  lfsr : BitVec 16
  deriving DecidableEq, Repr

/-- `Gen(w, p)` with the shared LFSR: noise ignores the phase, steps the LFSR once and returns the low
byte of the new value. Every other generator leaves the LFSR alone (R90, R97). -/
def gen (w : BitVec 3) (p lfsr : BitVec 16) : GenResult :=
  match pureGen (waveOfId w) p with
  | some raw => { raw := raw, lfsr := lfsr }
  | none => { raw := (lfsrNext lfsr).extractLsb' 0 8, lfsr := lfsrNext lfsr }

/-- The waveform ROM of R100: byte `Gen(w, p)` at address `(w, p[15:7])`, its contents taken at the
phases whose low seven bits are 0. Bank 6 is absent, noise bypasses the ROM. -/
def waveRom (w : BitVec 3) (address : BitVec 9) : Option Byte := pureGen (waveOfId w) (address ++ 0#7)

/-- The LFSR after `k` steps (R101). -/
def lfsrAfter (k : Nat) (l : BitVec 16) : BitVec 16 :=
  match k with
  | 0 => l
  | k + 1 => lfsrAfter k (lfsrNext l)

end Sys2Proof.Machine
end

