-- ==== Sys2Proof/Machine/Mixer.lean ====
section
/-! DEFINITION. SAMPLE and the mixer (42_mixer.md R141 to R145). -/

namespace Sys2Proof.Machine

/-- The mixer's running values within one SAMPLE: the sum of deviations, the count of contributors, and
the LFSR, which a noise channel steps (R141). -/
structure MixAcc where
  sum : Int
  n : Nat
  lfsr : BitVec 16
  deriving DecidableEq, Repr

/-- `delta = tdiv((raw - 128) * volume, 7)` (R142). -/
def delta (raw : Byte) (volume : BitVec 3) : Int := tdiv (((raw.toNat : Int) - 128) * (volume.toNat : Int)) 7

/-- One channel's part of the mix. The generator reads the phase before the advance (R142). -/
def mixChannel (acc : MixAcc) (c : Channel) : MixAcc :=
  if contributes c then
    let g := gen c.waveform c.phase acc.lfsr
    { sum := acc.sum + delta g.raw c.volume, n := acc.n + 1, lfsr := g.lfsr }
  else acc

/-- The channels mixed in ascending order (R141, 40_waveforms.md R99). -/
def mixAll (lfsr : BitVec 16) (channels : List Channel) : MixAcc :=
  channels.foldl mixChannel { sum := 0, n := 0, lfsr := lfsr }

/-- `mix`: the truncated average of the contributors, 0 with none (R144). -/
def mixOf (acc : MixAcc) : Int := if acc.n = 0 then 0 else tdiv acc.sum acc.n

/-- `clamp(128 + tdiv(mix * masterVolume, 255), 0, 255)` (R143). -/
def outputValue (mix : Int) (masterVolume : BitVec 8) : Int :=
  clamp (128 + tdiv (mix * (masterVolume.toNat : Int)) 255) 0 255

/-- The phase advance of a contributing channel, modulo 65536 (R141). -/
def Channel.advancePhase (c : Channel) : Channel :=
  if contributes c then { c with phase := c.phase + c.phaseIncrement } else c

/-- SAMPLE on the block (R141). -/
def Block.sample (b : Block) : Block :=
  let acc := mixAll b.lfsr b.ch.toList
  { ch := b.ch.map Channel.advancePhase
    masterVolume := b.masterVolume
    lfsr := acc.lfsr
    out := BitVec.ofInt 8 (outputValue (mixOf acc) b.masterVolume) }

/-- SAMPLE (R141). -/
def execSample (s : State) : Result := runOnBlock s (fun _ b => b.sample)

end Sys2Proof.Machine
end

