-- ==== Sys2Proof/Machine/Sequencer.lean ====
section
/-! DEFINITION. The sequencer's commands: TRIGGER, RSVD_TRIG, STOP, STOPALL, TICK (41_sequencer.md R110 to R124). -/

namespace Sys2Proof.Machine

/-- Loading a note's waveform and volume, whatever its class (R113). -/
def Channel.loadFields (c : Channel) (n : Half) : Channel :=
  { c with waveform := noteWaveform n, volume := noteVolume n }

/-- A channel bound afresh to record `sfx`: every write of TRIGGER but those that depend on note 0 (R116). -/
def Channel.bind (r : Roms) (sfx : BitVec 15) (c : Channel) : Channel :=
  { c with
    bound := true
    sfx := sfx
    noteIndex := 0#5
    sampleCount := 0#16
    phase := 0#16
    samplesPerNote := BitVec.ofNat 16 (samplesPerNoteOf (headerSpeed (Roms.header r sfx.toNat)))
    looping := loopingFlag (Roms.header r sfx.toNat) }

/-- Note 0's part of TRIGGER: a Sounding note sets the increment and starts the voice. A Rest or Dead
one leaves the increment and the voice Idle (R116). -/
def Channel.startNote (r : Roms) (n : Half) (c : Channel) : Channel :=
  { c.loadFields n with
    phaseIncrement := if noteClass n = .sounding then phaseInc r (notePitch n) else c.phaseIncrement
    active := activeAfterTrigger n }

/-- TRIGGER on the channel it names (R116). -/
def Channel.trigger (r : Roms) (sfx : BitVec 15) (c : Channel) : Channel :=
  (c.bind r sfx).startNote r (Roms.note r sfx.toNat 0)

/-- TRIGGER on the block: ignored unless both indices are in range (R115, R116). -/
def Block.trigger (ch : BitVec 8) (sfx : BitVec 15) (r : Roms) (b : Block) : Block :=
  match channelIndex ch with
  | none => b
  | some i => if sfx.toNat < r.numSfx then b.updateChannel i (Channel.trigger r sfx) else b

/-- Stopping a voice: `active` and nothing else (R118). -/
def Channel.stop (c : Channel) : Channel := { c with active := false }

/-- STOP on the block: ignored for a channel index of 4 or more (R118). -/
def Block.stop (b : Block) (ch : BitVec 8) : Block :=
  match channelIndex ch with
  | none => b
  | some i => b.updateChannel i Channel.stop

/-- STOPALL on the block (R119). -/
def Block.stopAll (b : Block) : Block := b.mapChannels Channel.stop

/-- The note index after the current one, in TICK: a wrap to `loopStart` for a looping channel that has
reached `loopEnd`, none past note 31 (R121). `t` is the 6-bit temporary, never stored as 32. -/
def nextNoteIndex (looping : Bool) (loopStart loopEnd : Nat) (noteIndex : BitVec 5) : Option (BitVec 5) :=
  let t := noteIndex.toNat + 1
  if looping = true ∧ loopEnd ≤ t then some (BitVec.ofNat 5 loopStart)
  else if Config.notesPerSfx ≤ t then none
  else some (BitVec.ofNat 5 t)

/-- TICK's load of note `t`: Sounding sets the increment, a Rest sets it to 0, a Dead note stops the
voice with the increment unchanged (R121). -/
def Channel.loadNote (r : Roms) (t : BitVec 5) (c : Channel) : Channel :=
  let n := Roms.note r c.sfx.toNat t.toNat
  { c.loadFields n with
    noteIndex := t
    phaseIncrement :=
      match noteClass n with
      | .sounding => phaseInc r (notePitch n)
      | .rest => 0#16
      | .dead => c.phaseIncrement
    active := activeAfterTick n }

/-- TICK once a note's time has run out: the next note, or the end of the sequence (R121). -/
def Channel.advance (r : Roms) (c : Channel) : Channel :=
  let h := Roms.header r c.sfx.toNat
  match nextNoteIndex c.looping (headerLoopStart h) (headerLoopEnd h) c.noteIndex with
  | none => c.stop
  | some t => c.loadNote r t

/-- TICK's count of one frame's samples (R121, 00_scope.md R7). -/
def Channel.countFrame (c : Channel) : Channel :=
  { c with sampleCount := c.sampleCount + BitVec.ofNat 16 Config.tickInc }

/-- The excess is discarded when the note advances (R121). -/
def Channel.clearCount (c : Channel) : Channel := { c with sampleCount := 0#16 }

/-- TICK on one channel (R121). -/
def Channel.tick (r : Roms) (c : Channel) : Channel :=
  if c.active then
    if c.countFrame.sampleCount < c.samplesPerNote then c.countFrame
    else c.countFrame.clearCount.advance r
  else c

/-- TICK on the block: the channels do not interact, so the ascending order changes no result (R120). -/
def Block.tick (r : Roms) (b : Block) : Block := b.mapChannels (Channel.tick r)

/-- TRIGGER sfx, ch (R116). -/
def execTrigger (ch : BitVec 8) (sfx : BitVec 15) (s : State) : Result :=
  runOnBlock s (Block.trigger ch sfx)

/-- The reserved trigger: ignored (R117). -/
def execRsvdTrig (_ch : BitVec 8) (_sfx : BitVec 16) (s : State) : Result := runOnBlock s (fun _ b => b)

/-- STOP ch (R118). -/
def execStop (ch : BitVec 8) (s : State) : Result := runOnBlock s (fun _ b => b.stop ch)

/-- STOPALL: the CH field has no effect (R119). -/
def execStopall (_ch : BitVec 8) (s : State) : Result := runOnBlock s (fun _ b => b.stopAll)

/-- TICK (R121). -/
def execTick (s : State) : Result := runOnBlock s Block.tick

end Sys2Proof.Machine
end

