-- ==== Sys2Proof/Machine/Dispatch.lean ====
section
/-! DEFINITION. One arm per command, each a direct call of its meaning. `exec` is the meaning of a command
the block has accepted: whether it is accepted stands in Machine/Bus.lean (log 24). -/

namespace Sys2Proof.Machine
open Sys2Proof

def exec (i : Instr) (s : State) : Host.Outcome State Fault Refusal :=
  match i with
  | .nop => Sys2Proof.Machine.execNop s
  | .stop ch => Sys2Proof.Machine.execStop ch s
  | .stopall ch => Sys2Proof.Machine.execStopall ch s
  | .trigger ch sfx => Sys2Proof.Machine.execTrigger ch sfx s
  | .rsvdTrig ch sfx => Sys2Proof.Machine.execRsvdTrig ch sfx s
  | .tick => Sys2Proof.Machine.execTick s
  | .sample => Sys2Proof.Machine.execSample s
  | .setvol level => Sys2Proof.Machine.execSetvol level s
  | .rsvdOp5 => Sys2Proof.Machine.execRsvdOp5 s
  | .rsvdOp6_7 op => Sys2Proof.Machine.execRsvdOp6_7 op s
  | .rsvdOp8_F op => Sys2Proof.Machine.execRsvdOp8_F op s

end Sys2Proof.Machine
end

