-- ==== Sys2Proof/Machine/Step.lean ====
section
/-! DEFINITION. One step: the block accepts the next access or reset edge and, if it issues a command,
executes it atomically (20_memory.md R63, 00_scope.md R13). -/

namespace Sys2Proof.Machine

/-- One step. With nothing pending the block waits, unchanged (70_reset_and_hazards.md R180). -/
def step (s : State) : Host.Outcome State Fault Refusal :=
  match s.fetch with
  | .wait => .next s
  | .served s' => .next s'
  | .command w s' => exec (decode w) s'
  | .refuse r => .refused r

/-- The state whose very next step accepts and runs the command with the given bits. -/
def State.withFetchWord (s : State) (nbits w : Nat) : State := s.withCommand (fetchWordOf nbits w)

end Sys2Proof.Machine
end

