-- ==== Sys2Proof/Machine/Assembler.lean ====
section
/-! DEFINITION. This spec's assembler syntax (30_encoding.md R80), from a line of text to a command word. -/

namespace Sys2Proof.Machine

/-- One line of assembly with its operands as written (R80). -/
inductive AsmLine where
  | nop
  | trigger (sfx ch : Int)
  | stop (ch : Int)
  | stopall
  | tick
  | sample
  | setvol (level : Int)
  /-- `.word v`, a raw 32-bit word. -/
  | word (v : Int)
  deriving DecidableEq, Repr

/-- An assembly error: no command is emitted (R80). -/
inductive AsmError where
  /-- An operand outside its range. -/
  | operandRange
  /-- A mnemonic the table does not have. -/
  | unknownMnemonic
  /-- Operands missing, left over, or no number. -/
  | badOperands
  deriving DecidableEq, Repr

/-- Whether an operand lies in `0..hi`. -/
def inRange (v : Int) (hi : Int) : Bool := decide (0 ≤ v) && decide (v ≤ hi)

/-- The encoding column of R80. `TRIGGER -1, ch` and `TRIGGER -2, ch` are STOP ch and STOPALL with CH = ch. -/
def assemble : AsmLine → Except AsmError Word
  | .nop => .ok (encode .nop)
  | .trigger sfx ch =>
    if inRange ch 255 = false then .error .operandRange
    else if sfx = -1 then .ok (encode (.stop (BitVec.ofInt 8 ch)))
    else if sfx = -2 then .ok (encode (.stopall (BitVec.ofInt 8 ch)))
    else if inRange sfx 32767 = false then .error .operandRange
    else .ok (encode (.trigger (BitVec.ofInt 8 ch) (BitVec.ofInt 15 sfx)))
  | .stop ch =>
    if inRange ch 255 = false then .error .operandRange else .ok (encode (.stop (BitVec.ofInt 8 ch)))
  | .stopall => .ok (encode (.stopall 0))
  | .tick => .ok (encode .tick)
  | .sample => .ok (encode .sample)
  | .setvol level =>
    if inRange level 255 = false then .error .operandRange
    else .ok (encode (.setvol (BitVec.ofInt 8 level)))
  | .word v => if inRange v 4294967295 = false then .error .operandRange else .ok (BitVec.ofInt 32 v)

/-- A space or a tab. -/
def isBlank (c : Char) : Bool := c = ' ' || c = '\t'

/-- The line without its comment: `;` starts one (R80). -/
def stripComment (l : List Char) : List Char := l.takeWhile (fun c => c ≠ ';')

/-- A text without blanks at either end. -/
def trimBlanks (l : List Char) : List Char := ((l.dropWhile isBlank).reverse.dropWhile isBlank).reverse

/-- The pieces of a text between commas. -/
def splitCommas : List Char → List (List Char)
  | [] => [[]]
  | c :: rest =>
    if c = ',' then [] :: splitCommas rest
    else
      match splitCommas rest with
      | [] => [[c]]
      | piece :: more => (c :: piece) :: more

/-- A decimal digit's value. -/
def decDigit (c : Char) : Option Nat :=
  if 48 ≤ c.toNat ∧ c.toNat ≤ 57 then some (c.toNat - 48) else none

/-- A hexadecimal digit's value, in either letter case (log 20). -/
def hexDigit (c : Char) : Option Nat :=
  if 48 ≤ c.toNat ∧ c.toNat ≤ 57 then some (c.toNat - 48)
  else if 65 ≤ c.toNat ∧ c.toNat ≤ 70 then some (c.toNat - 55)
  else if 97 ≤ c.toNat ∧ c.toNat ≤ 102 then some (c.toNat - 87)
  else none

/-- The number a list of digits spells, most significant first. -/
def digitsValue (base : Nat) (digit : Char → Option Nat) (acc : Nat) : List Char → Option Nat
  | [] => some acc
  | c :: rest =>
    match digit c with
    | none => none
    | some d => digitsValue base digit (acc * base + d) rest

/-- A number without a sign: decimal, or hexadecimal after `0x` (R80). -/
def parseNat : List Char → Option Nat
  | [] => none
  | ['0', 'x'] => none
  | '0' :: 'x' :: digits => digitsValue 16 hexDigit 0 digits
  | digits => digitsValue 10 decDigit 0 digits

/-- A number: `TRIGGER -1, ch` shows that a minus sign may stand before it (R80). -/
def parseNumber : List Char → Option Int
  | '-' :: digits => (parseNat digits).map (fun n => -(n : Int))
  | digits => (parseNat digits).map (fun n => (n : Int))

/-- The operands of a line: numbers separated by commas, none for an empty text. -/
def parseOperands (l : List Char) : Option (List Int) :=
  if trimBlanks l = [] then some [] else (splitCommas l).mapM (fun piece => parseNumber (trimBlanks piece))

/-- The mnemonics of R80. -/
inductive Mnemonic where
  | nop
  | trigger
  | stop
  | stopall
  | tick
  | sample
  | setvol
  | word
  deriving DecidableEq, Repr

/-- A mnemonic in upper case, or `.word` (R80). -/
def parseMnemonic (l : List Char) : Option Mnemonic :=
  if l = ['N', 'O', 'P'] then some .nop
  else if l = ['T', 'R', 'I', 'G', 'G', 'E', 'R'] then some .trigger
  else if l = ['S', 'T', 'O', 'P'] then some .stop
  else if l = ['S', 'T', 'O', 'P', 'A', 'L', 'L'] then some .stopall
  else if l = ['T', 'I', 'C', 'K'] then some .tick
  else if l = ['S', 'A', 'M', 'P', 'L', 'E'] then some .sample
  else if l = ['S', 'E', 'T', 'V', 'O', 'L'] then some .setvol
  else if l = ['.', 'w', 'o', 'r', 'd'] then some .word
  else none

/-- A mnemonic with its operands: `TRIGGER sfx, ch`, `STOP ch`, `SETVOL level`, `.word v`, the rest alone (R80). -/
def asmLineOf : Mnemonic → List Int → Option AsmLine
  | .nop, [] => some .nop
  | .trigger, [sfx, ch] => some (.trigger sfx ch)
  | .stop, [ch] => some (.stop ch)
  | .stopall, [] => some .stopall
  | .tick, [] => some .tick
  | .sample, [] => some .sample
  | .setvol, [level] => some (.setvol level)
  | .word, [v] => some (.word v)
  | _, _ => none

/-- One line of text: a command, or none for a line that is blank or a comment. -/
def parseLine (l : List Char) : Except AsmError (Option AsmLine) :=
  let text := trimBlanks (stripComment l)
  if text = [] then .ok none
  else
    match parseMnemonic (text.takeWhile (fun c => isBlank c = false)) with
    | none => .error .unknownMnemonic
    | some m =>
      match (parseOperands (text.dropWhile (fun c => isBlank c = false))).bind (asmLineOf m) with
      | none => .error .badOperands
      | some a => .ok (some a)

/-- The word of one line of text, none for a line that holds no command. -/
def assembleLine (l : List Char) : Except AsmError (Option Word) :=
  match parseLine l with
  | .error e => .error e
  | .ok none => .ok none
  | .ok (some a) =>
    match assemble a with
    | .error e => .error e
    | .ok w => .ok (some w)

/-- The words of a program, one command a line (R80). -/
def assembleProgram : List (List Char) → Except AsmError (List Word)
  | [] => .ok []
  | l :: rest =>
    match assembleLine l, assembleProgram rest with
    | .error e, _ => .error e
    | .ok _, .error e => .error e
    | .ok none, .ok ws => .ok ws
    | .ok (some w), .ok ws => .ok (w :: ws)

end Sys2Proof.Machine
end

