-- ==== Sys2Proof/Machine/Driver.lean ====
section
/-! DEFINITION. The host's side: the API calls as accesses of the register window (30_encoding.md R81) and
the boot order (70_reset_and_hazards.md R183). The block checks neither. -/

namespace Sys2Proof.Machine

/-- The API of the source (R81). `stop(c)` is `trigger(-1, c)`, `stopAll()` is `trigger(-2, c)` (conflict C5). -/
inductive ApiCall where
  | trigger (sfx ch : Int)
  | tick
  | nextSample
  | setMasterVolume (level : BitVec 8)
  deriving DecidableEq, Repr

/-- The commands of a call. Where R81 allows nothing or an ignored TRIGGER, nothing (log 19). -/
def ApiCall.commands : ApiCall → List Instr
  | .trigger sfx ch =>
    if sfx = -2 then [.stopall 0]
    else if 0 ≤ ch ∧ ch ≤ 255 then
      if sfx = -1 then [.stop (BitVec.ofInt 8 ch)]
      else if 0 ≤ sfx ∧ sfx ≤ 32767 then [.trigger (BitVec.ofInt 8 ch) (BitVec.ofInt 15 sfx)]
      else []
    else []
  | .tick => [.tick]
  | .nextSample => [.sample]
  | .setMasterVolume level => [.setvol level]

/-- The accesses of a call: a CMD write for each command, and for `nextSample` a read of OUT after it (R81), 8 bits
wide (log 13). -/
def ApiCall.accesses (c : ApiCall) : List Access :=
  c.commands.map (fun i => commandWrite (encode i))
    ++ (match c with
        | .nextSample => [.read 4 .w8]
        | .trigger _ _ => []
        | .tick => []
        | .setMasterVolume _ => [])

/-- A context makes a call: its accesses queue up behind the earlier ones (20_memory.md R63). -/
def State.call (s : State) (c : Context) (a : ApiCall) : State := a.accesses.foldl (fun t x => t.enqueue c x) s

/-- Boot step 2: reset is asserted and released (70_reset_and_hazards.md R183). -/
def bootEdges : List ResetEdge := [.assert, .release]

/-- Power-on with the ROMs fixed (boot step 1) and the reset of boot step 2 about to come (R183). -/
def State.booting (r : Roms) : State := { State.powerOn r with platform := bootEdges }

/-- Commands executed one after another, in one total order (20_memory.md R63). -/
def execAll : List Instr → State → Result
  | [], s => .next s
  | i :: rest, s =>
    match exec i s with
    | .next t => execAll rest t
    | .fault r => .fault r
    | .refused r => .refused r

end Sys2Proof.Machine
end

