-- ==== Sys2Proof/Machine/Labels.lean ====
section
/-! DEFINITION. The labels of 60_exceptions.md R161: why a command did nothing, or why it stopped a
voice. They are for a reader of the model: the block records none of them. -/

namespace Sys2Proof.Machine

/-- The labels of R161, in its table's order. -/
inductive IgnoreLabel where
  | ignSfxRange
  | ignChRange
  | ignSfxReserved
  | ignOpcode
  | ignBus
  | deadFirstNote
  | deadNote
  deriving DecidableEq, Repr

/-- The first five labels name an `ignore`: no state change. The last two name state changes (R161). -/
def IgnoreLabel.isIgnore : IgnoreLabel → Bool
  | .ignSfxRange => true
  | .ignChRange => true
  | .ignSfxReserved => true
  | .ignOpcode => true
  | .ignBus => true
  | .deadFirstNote => false
  | .deadNote => false

/-- TRIGGER's label: of several that apply, the first in R161's order (60_exceptions.md R163). -/
def triggerLabel (r : Roms) (ch : BitVec 8) (sfx : BitVec 15) : Option IgnoreLabel :=
  if r.numSfx ≤ sfx.toNat then some .ignSfxRange
  else if 4 ≤ ch.toNat then some .ignChRange
  else if noteClass (Roms.note r sfx.toNat 0) = .sounding then none
  else some .deadFirstNote

/-- STOP's label. -/
def stopLabel (ch : BitVec 8) : Option IgnoreLabel := if 4 ≤ ch.toNat then some .ignChRange else none

/-- Whether a TICK loads a Dead note into this channel. -/
def loadsDeadNote (r : Roms) (c : Channel) : Bool :=
  c.active && !decide (c.countFrame.sampleCount < c.samplesPerNote)
    && (match nextNoteIndex c.looping (headerLoopStart (Roms.header r c.sfx.toNat))
          (headerLoopEnd (Roms.header r c.sfx.toNat)) c.noteIndex with
        | none => false
        | some t => decide (noteClass (Roms.note r c.sfx.toNat t.toNat) = .dead))

/-- TICK's label, when it loads a Dead note into any channel (log 21). -/
def tickLabel (r : Roms) (b : Block) : Option IgnoreLabel :=
  if b.ch.toList.any (loadsDeadNote r) then some .deadNote else none

/-- The label of a command in a state (R161). -/
def commandLabel (i : Instr) (s : State) : Option IgnoreLabel :=
  match i with
  | .nop => none
  | .stop ch => stopLabel ch
  | .stopall _ => none
  | .trigger ch sfx => triggerLabel s.roms ch sfx
  | .rsvdTrig _ _ => some .ignSfxReserved
  | .tick => tickLabel s.roms s.block
  | .sample => none
  | .setvol _ => none
  | .rsvdOp5 => some .ignOpcode
  | .rsvdOp6_7 _ => some .ignOpcode
  | .rsvdOp8_F _ => some .ignOpcode

/-- The label of a CMD write that issues no command: narrow or misaligned (R161, 20_memory.md R59). -/
def busLabel : Access → Option IgnoreLabel
  | .read _ _ => none
  | .write off wd _ =>
    if off.val < Config.outOffset ∧ ¬(off.val = Config.cmdOffset ∧ wd = .w32) then some .ignBus else none

end Sys2Proof.Machine
end

