-- ==== Sys2Proof/Safety.lean ====
section
/-! DEFINITION. What holds in every state that a run from reset reaches (10_state.md R26, R35, R40, R43,
40_waveforms.md R101, 70_reset_and_hazards.md R181). -/

namespace Sys2Proof.Machine

/-- A channel that is bound agrees with the record it plays (R26, R30, R33, R35), an active one is bound
and has time left in its note (R40 (c), (d)), and what it sounds is its current note (R40 (e)). -/
structure Channel.Inv (r : Roms) (c : Channel) : Prop where
  /-- R26. -/
  sfxInRange : c.bound = true → c.sfx.toNat < r.numSfx
  /-- R40 (b). -/
  noteFloor : c.bound = true → 183 ≤ c.samplesPerNote.toNat
  /-- R30. -/
  duration : c.bound = true →
    c.samplesPerNote.toNat = samplesPerNoteOf (headerSpeed (Roms.header r c.sfx.toNat))
  /-- R35. -/
  loops : c.bound = true → c.looping = loopingFlag (Roms.header r c.sfx.toNat)
  /-- R33: waveform and volume are those of the note loaded last. -/
  loaded : c.bound = true →
    c.waveform = noteWaveform (Roms.note r c.sfx.toNat c.noteIndex.toNat) ∧
      c.volume = noteVolume (Roms.note r c.sfx.toNat c.noteIndex.toNat)
  /-- R40 (c). -/
  timeLeft : c.active = true → c.sampleCount.toNat < c.samplesPerNote.toNat
  /-- R40 (d). -/
  activeBound : c.active = true → c.bound = true
  /-- R40 (e). -/
  sounding : c.active = true → c.volume ≠ 0#3 →
    notePitch (Roms.note r c.sfx.toNat c.noteIndex.toNat) < 64 ∧
      c.phaseIncrement = phaseInc r (notePitch (Roms.note r c.sfx.toNat c.noteIndex.toNat))
  /-- R32: a Rest's increment is 0. -/
  restStill : c.active = true → c.volume = 0#3 → c.phaseIncrement = 0#16

/-- The block's invariant: every channel's, and an LFSR that never reaches 0 (R101). -/
structure Block.Inv (r : Roms) (b : Block) : Prop where
  channels : ∀ i : Fin 4, Channel.Inv r (b.channel i)
  lfsrNonzero : b.lfsr ≠ 0#16

/-- The machine's invariant: legal ROMs, the block's invariant once it has been reset (R40, R42), and
reset values while reset is asserted (R181). -/
structure State.Inv (s : State) : Prop where
  romsLegal : Roms.wf s.roms = true
  blockInv : s.power ≠ .unreset → Block.Inv s.roms s.block
  heldReset : s.power = .asserted → s.block = Block.reset

/-- What TICK's load of note `k` makes of an active channel: from `c` before the TICK to `d` after it (41_sequencer.md R121). -/
structure Channel.NoteLoaded (r : Roms) (c d : Channel) (k : Nat) : Prop where
  index : d.noteIndex.toNat = k
  counted : d.sampleCount = 0#16
  wave : d.waveform = (Roms.note r c.sfx.toNat k).extractLsb' 7 3
  level : d.volume = (Roms.note r c.sfx.toNat k).extractLsb' 10 3
  soundingNote : notePitch (Roms.note r c.sfx.toNat k) < 64 → d.volume ≠ 0#3 →
    d.active = true ∧ d.phaseIncrement = phaseInc r (notePitch (Roms.note r c.sfx.toNat k))
  restNote : d.volume = 0#3 → d.active = true ∧ d.phaseIncrement = 0#16
  deadNote : 64 ≤ notePitch (Roms.note r c.sfx.toNat k) → d.volume ≠ 0#3 →
    d.active = false ∧ d.phaseIncrement = c.phaseIncrement
  kept : d.bound = c.bound ∧ d.sfx = c.sfx ∧ d.samplesPerNote = c.samplesPerNote ∧
    d.phase = c.phase ∧ d.looping = c.looping

/-- The number of TICKs a note lasts: the note duration over 367, rounded up (41_sequencer.md R123). -/
def Channel.ticksPerNote (c : Channel) : Nat := (c.samplesPerNote.toNat + 366) / 367

/-- The 13 bits of a note word and the 24 bits of a header word that some command reads (20_memory.md R57). -/
def usedNoteBits (n : Half) : BitVec 13 := n.extractLsb' 0 13

/-- See `usedNoteBits`. -/
def usedHeaderBits (h : Word) : BitVec 24 := h.extractLsb' 0 24

/-- How many channels are Playing: at most `NUM_CH`, whatever the state (R40 (f)). -/
def Block.activeCount (b : Block) : Nat := (b.ch.toList.filter (fun c => c.active)).length

/-- How many accesses and edges are issued and not yet accepted. -/
def State.pendingCount (s : State) : Nat :=
  s.sample.pending.length + s.frame.pending.length + s.platform.length

/-- Two ROMs that a command cannot tell apart: the same pitches and record count, and records that
agree but for header bits [31:24] and the notes' `effect` field (20_memory.md R57). -/
def Roms.agree (r q : Roms) : Prop :=
  r.pitch = q.pitch ∧ r.numSfx = q.numSfx ∧
    ∀ s, s < r.numSfx →
      usedHeaderBits (Roms.header r s) = usedHeaderBits (Roms.header q s) ∧
        ∀ k, k < 32 → usedNoteBits (Roms.note r s k) = usedNoteBits (Roms.note q s k)

end Sys2Proof.Machine
end

