-- ==== Sys2Proof/Certificates/Slice0/Obligations.lean ====
section
/-! DEFINITION. The statements for the provers, each a `def Obligations.<Name> : Prop`. Each docstring names the
rule it formalises. A premise `Block.Inv` or `State.Inv` rules out states no run from reset reaches. -/

open Sys2Proof Sys2Proof.Machine

/-! ## Encoding -/

/-- R82: the ten encoded examples, assembled and decoded. -/
def Obligations.ExampleWordsAssembleAndDecode : Prop :=
  (assemble (.trigger 0 0) = .ok 0x10000000#32 ∧ decode 0x10000000#32 = .trigger 0 0) ∧
  (assemble (.trigger 999 0) = .ok 0x100003E7#32 ∧ decode 0x100003E7#32 = .trigger 0 999) ∧
  (assemble (.trigger 4 3) = .ok 0x10030004#32 ∧ decode 0x10030004#32 = .trigger 3 4) ∧
  (assemble (.stop 2) = .ok 0x1002FFFF#32 ∧ decode 0x1002FFFF#32 = .stop 2) ∧
  (assemble .stopall = .ok 0x1000FFFE#32 ∧ decode 0x1000FFFE#32 = .stopall 0) ∧
  (assemble .tick = .ok 0x20000000#32 ∧ decode 0x20000000#32 = .tick) ∧
  (assemble .sample = .ok 0x30000000#32 ∧ decode 0x30000000#32 = .sample) ∧
  (assemble (.setvol 0) = .ok 0x40000000#32 ∧ decode 0x40000000#32 = .setvol 0) ∧
  (assemble (.setvol 128) = .ok 0x40000080#32 ∧ decode 0x40000080#32 = .setvol 128) ∧
  (assemble (.setvol 255) = .ok 0x400000FF#32 ∧ decode 0x400000FF#32 = .setvol 255)

/-- Decoding an encoded well-formed command gives it back, with every operand (R70 to R74, R80). -/
def Obligations.DecodeOfEncodeIsTheCommand : Prop :=
  ∀ i : Instr, i.wellFormed = true → decode (encode i) = i

/-- Every word decodes to a well-formed command, and encoding that command gives the word back with its
reserved bits zero (R75, R76). -/
def Obligations.EncodeOfDecodeClearsReservedBits : Prop :=
  ∀ w : Word, (decode w).wellFormed = true ∧ encode (decode w) = w &&& ~~~(reservedBits w)

/-- R74: the command of a word is that of the first matching row of the opcode table. -/
def Obligations.DecodeIsTheFirstMatchingRow : Prop :=
  ∀ w : Word, opcodeTable.findIdx? (fun r => r.matchesWord w) = some (decode w).rowIndex

/-- R75: reserved bits are ignored. Whatever they hold, the word decodes and executes the same. -/
def Obligations.ReservedWordBitsHaveNoEffect : Prop :=
  (∀ w : Word, (fieldOp w = 1#4 → reservedBits w = 0x0F000000#32) ∧
    (fieldOp w = 4#4 → reservedBits w = 0x0FFFFF00#32) ∧
    (fieldOp w ≠ 1#4 → fieldOp w ≠ 4#4 → reservedBits w = 0x0FFFFFFF#32)) ∧
  ∀ w v : Word, ∀ s : State,
    decode ((w &&& ~~~(reservedBits w)) ||| (v &&& reservedBits w)) = decode w ∧
      step (s.withCommand ((w &&& ~~~(reservedBits w)) ||| (v &&& reservedBits w))) = step (s.withCommand w)

/-- R80, operands in range: the line assembles to a word that decodes to the command with those operand
values. Out of range: an assembly error and no word. -/
def Obligations.AssembledOperandsAreTheCommandsOperands : Prop :=
  (∀ sfx ch : Int, 0 ≤ sfx → sfx ≤ 32767 → 0 ≤ ch → ch ≤ 255 →
    ∃ w c x, assemble (.trigger sfx ch) = .ok w ∧ decode w = .trigger c x ∧
      (c.toNat : Int) = ch ∧ (x.toNat : Int) = sfx) ∧
  (∀ ch : Int, 0 ≤ ch → ch ≤ 255 →
    (∃ w c, assemble (.stop ch) = .ok w ∧ assemble (.trigger (-1) ch) = .ok w ∧
      decode w = .stop c ∧ (c.toNat : Int) = ch) ∧
    (∃ w c, assemble (.trigger (-2) ch) = .ok w ∧ decode w = .stopall c ∧ (c.toNat : Int) = ch)) ∧
  (∀ level : Int, 0 ≤ level → level ≤ 255 →
    ∃ w l, assemble (.setvol level) = .ok w ∧ decode w = .setvol l ∧ (l.toNat : Int) = level) ∧
  (∀ sfx ch : Int, (ch < 0 ∨ 255 < ch ∨ sfx < -2 ∨ 32767 < sfx) →
    assemble (.trigger sfx ch) = .error .operandRange) ∧
  (∀ v : Int, (v < 0 ∨ 255 < v) →
    assemble (.stop v) = .error .operandRange ∧ assemble (.setvol v) = .error .operandRange)

/-- R81 with R115 and source policy: an API trigger within `NUM_SFX` and the channel pool is one TRIGGER, one
with an index out of range (and no sentinel) changes nothing. `execAll` runs the call's commands. -/
def Obligations.ApiTriggerActsOnlyInRange : Prop :=
  ∀ (s : State) (sfx ch : Int), s.roms.numSfx ≤ 32768 → sfx ≠ -1 → sfx ≠ -2 →
    ((0 ≤ sfx ∧ sfx < s.roms.numSfx ∧ 0 ≤ ch ∧ ch < 4) →
      execAll (ApiCall.trigger sfx ch).commands s =
        exec (.trigger (BitVec.ofInt 8 ch) (BitVec.ofInt 15 sfx)) s) ∧
    (¬(0 ≤ sfx ∧ sfx < s.roms.numSfx ∧ 0 ≤ ch ∧ ch < 4) →
      execAll (ApiCall.trigger sfx ch).commands s = .next s)

/-! ## Constants and ROMs -/

/-- R6 and R7: the fixed constants, and `TICK_INC` as the truncated quotient 367. -/
def Obligations.ConstantsAreTheSources : Prop :=
  Config.sampleRate = 22050 ∧ Config.phaseModulus = 2 ^ 16 ∧ Config.numCh = 4 ∧ Config.pitchEntries = 64 ∧
  Config.numWave = 8 ∧ Config.noteFloor = 183 ∧ Config.speedMult = 183 ∧ Config.frameRate = 60 ∧
  Config.notesPerSfx = 32 ∧ Config.lfsrSeed = 0xACE1#16 ∧ Config.tickInc = 22050 / 60 ∧ Config.tickInc = 367

/-- R51 and R52: the default pitch ROM is legal, has A4 = 440 at index 33, and gives the `PhaseInc` column. -/
def Obligations.DefaultPitchRomGivesTheListedIncrements : Prop :=
  pitchLegal Config.defaultPitch = true ∧ Config.defaultPitch.getD 33 0#16 = 440#16 ∧
  ∀ r : Roms, r.pitch = Config.defaultPitch →
    (List.range 64).map (fun k => (phaseInc r k).toNat) =
      [193, 205, 216, 231, 243, 258, 273, 291, 309, 326, 347, 365, 389, 413, 436, 463,
       490, 520, 549, 582, 618, 653, 692, 734, 778, 823, 873, 924, 980, 1037, 1099, 1165,
       1233, 1307, 1385, 1468, 1554, 1646, 1744, 1848, 1958, 2074, 2199, 2330, 2469, 2615, 2770, 2936,
       3111, 3296, 3492, 3700, 3920, 4152, 4398, 4660, 4936, 5230, 5543, 5872, 6220, 6589, 6981, 7397]

/-- R112: with a legal pitch ROM the increment is the exact product over 22050, rounded down, and nothing
is lost in storing it in 16 bits. -/
def Obligations.PhaseIncrementIsExact : Prop :=
  ∀ (r : Roms) (k : Nat), Roms.wf r = true → k < 64 →
    Roms.pitchHz r k * 65536 / 22050 < 65536 ∧
      (phaseInc r k).toNat = Roms.pitchHz r k * 65536 / 22050

/-- R114: the note duration of every 8-bit speed. -/
def Obligations.SamplesPerNoteIsFlooredAt183 : Prop :=
  ∀ h : Word, samplesPerNoteOf (headerSpeed h) = max 183 ((h.extractLsb' 0 8).toNat * 183) ∧
    183 ≤ samplesPerNoteOf (headerSpeed h) ∧ samplesPerNoteOf (headerSpeed h) ≤ 46665 ∧
    (headerSpeed h ≤ 1 → samplesPerNoteOf (headerSpeed h) = 183)

/-- R111: a note falls into exactly one of three classes, by pitch and volume. -/
def Obligations.EveryNoteHasOneClass : Prop :=
  ∀ n : Half,
    (noteClass n = .sounding ↔ (n.extractLsb' 0 7).toNat < 64 ∧ 0 < (n.extractLsb' 10 3).toNat) ∧
    (noteClass n = .rest ↔ (n.extractLsb' 10 3).toNat = 0) ∧
    (noteClass n = .dead ↔ 64 ≤ (n.extractLsb' 0 7).toNat ∧ 0 < (n.extractLsb' 10 3).toNat)

/-- R56: in the image of a list of records, each of 68 bytes, the words read for record `s` are that record's. -/
def Obligations.RomImageHoldsItsRecords : Prop :=
  (∀ rec : SfxRecord, rec.bytes.length = 68) ∧
  ∀ (pitch : List Half) (recs : List SfxRecord) (s : Nat) (rec : SfxRecord), recs[s]? = some rec →
    (Roms.ofRecords pitch recs).numSfx = recs.length ∧
    Roms.header (Roms.ofRecords pitch recs) s = rec.header ∧
    (∀ j, j < 4 → Memory.read (Roms.ofRecords pitch recs).sfx (68 * s + j) = rec.header.extractLsb' (8 * j) 8) ∧
    ∀ k, k < 32 →
      Roms.note (Roms.ofRecords pitch recs) s k = rec.notes.getD k 0#16 ∧
      Memory.read (Roms.ofRecords pitch recs).sfx (68 * s + 4 + 2 * k) = (rec.notes.getD k 0#16).extractLsb' 0 8 ∧
      Memory.read (Roms.ofRecords pitch recs).sfx (68 * s + 4 + 2 * k + 1) = (rec.notes.getD k 0#16).extractLsb' 8 8

/-- R57: ROMs that differ only in header bits [31:24] and in `effect` fields give identical behaviour: every
command makes the same block of the same block. -/
def Obligations.ReservedRomBitsAreNotObservable : Prop :=
  ∀ (i : Instr) (s : State) (q : Roms), Roms.agree s.roms q → Block.Inv s.roms s.block →
    ∃ b : Block, exec i s = .next (s.withBlock b) ∧
      exec i { s with roms := q } = .next ({ s with roms := q }.withBlock b)

/-! ## Commands -/

/-- R117, R147, R148: NOP, the reserved trigger and the reserved opcodes execute and change nothing, and which words
they are. -/
def Obligations.IgnoredCommandsChangeNothing : Prop :=
  ∀ s : State,
    exec .nop s = .next s ∧ (∀ ch sfx, exec (.rsvdTrig ch sfx) s = .next s) ∧
    exec .rsvdOp5 s = .next s ∧ (∀ op, exec (.rsvdOp6_7 op) s = .next s) ∧
    (∀ op, exec (.rsvdOp8_F op) s = .next s) ∧
    (∀ w : Word, w.extractLsb' 28 4 = 0#4 → decode w = .nop) ∧
    (∀ w : Word, 5 ≤ (w.extractLsb' 28 4).toNat → exec (decode w) s = .next s) ∧
    (∀ w : Word, w.extractLsb' 28 4 = 1#4 → 0x8000 ≤ (w.extractLsb' 0 16).toNat →
      (w.extractLsb' 0 16).toNat ≤ 0xFFFD →
        decode w = .rsvdTrig (w.extractLsb' 16 8) (w.extractLsb' 0 16) ∧ exec (decode w) s = .next s)

/-- R115 and R116: TRIGGER with both indices in range writes the named channel as the pseudocode says and
nothing else. Otherwise it changes nothing. -/
def Obligations.TriggerBindsTheRecordAndLoadsNoteZero : Prop :=
  ∀ (s : State) (ch : BitVec 8) (sfx : BitVec 15),
    ((s.roms.numSfx ≤ sfx.toNat ∨ 4 ≤ ch.toNat) → exec (.trigger ch sfx) s = .next s) ∧
    (∀ w : Word, w.extractLsb' 28 4 = 1#4 → w.getLsbD 15 = false →
      decode w = .trigger (w.extractLsb' 16 8) (w.extractLsb' 0 15)) ∧
    ∀ i : Fin 4, ch.toNat = i.val → sfx.toNat < s.roms.numSfx →
      let c := s.block.channel i
      let h := Roms.header s.roms sfx.toNat
      let n := Roms.note s.roms sfx.toNat 0
      ∃ t d, exec (.trigger ch sfx) s = .next t ∧ t.block.channel i = d ∧
        d.bound = true ∧ d.sfx = sfx ∧ d.noteIndex = 0#5 ∧ d.sampleCount = 0#16 ∧ d.phase = 0#16 ∧
        d.samplesPerNote.toNat = max 183 ((h.extractLsb' 0 8).toNat * 183) ∧
        (d.looping = true ↔ (h.extractLsb' 8 8).toNat < (h.extractLsb' 16 8).toNat) ∧
        d.waveform = n.extractLsb' 7 3 ∧ d.volume = n.extractLsb' 10 3 ∧
        ((n.extractLsb' 0 7).toNat < 64 → 0 < (n.extractLsb' 10 3).toNat →
          d.active = true ∧ d.phaseIncrement = phaseInc s.roms (n.extractLsb' 0 7).toNat) ∧
        ((64 ≤ (n.extractLsb' 0 7).toNat ∨ (n.extractLsb' 10 3).toNat = 0) →
          d.active = false ∧ d.phaseIncrement = c.phaseIncrement) ∧
        (∀ j : Fin 4, j ≠ i → t.block.channel j = s.block.channel j) ∧
        t.block.lfsr = s.block.lfsr ∧ t.block.masterVolume = s.block.masterVolume ∧
        t.block.out = s.block.out ∧ t = s.withBlock t.block

/-- R118: STOP clears the named channel's `active` and writes nothing else. It changes nothing for a channel
index of 4 or more, and nothing on an Idle channel. -/
def Obligations.StopClearsOnlyActive : Prop :=
  ∀ (s : State) (ch : BitVec 8),
    (4 ≤ ch.toNat → exec (.stop ch) s = .next s) ∧
    (∀ w : Word, w.extractLsb' 28 4 = 1#4 → w.extractLsb' 0 16 = 0xFFFF#16 →
      decode w = .stop (w.extractLsb' 16 8)) ∧
    ∀ i : Fin 4, ch.toNat = i.val →
      ∃ t, exec (.stop ch) s = .next t ∧
        t.block.channel i = { s.block.channel i with active := false } ∧
        (∀ j : Fin 4, j ≠ i → t.block.channel j = s.block.channel j) ∧
        t.block.lfsr = s.block.lfsr ∧ t.block.masterVolume = s.block.masterVolume ∧
        t.block.out = s.block.out ∧ t = s.withBlock t.block ∧
        ((s.block.channel i).active = false → t = s)

/-- R119: STOPALL clears every `active`, whatever its CH field, and writes nothing else. The next SAMPLE returns 128. -/
def Obligations.StopAllClearsEveryActive : Prop :=
  (∀ w : Word, w.extractLsb' 28 4 = 1#4 → w.extractLsb' 0 16 = 0xFFFE#16 →
    decode w = .stopall (w.extractLsb' 16 8)) ∧
  ∀ (s : State) (ch : BitVec 8),
    ∃ t, exec (.stopall ch) s = .next t ∧
      (∀ i : Fin 4, t.block.channel i = { s.block.channel i with active := false }) ∧
      t.block.lfsr = s.block.lfsr ∧ t.block.masterVolume = s.block.masterVolume ∧
      t.block.out = s.block.out ∧ t = s.withBlock t.block ∧
      (∃ u, exec .sample t = .next u ∧ u.block.out = 128#8) ∧
      ((∀ i : Fin 4, (s.block.channel i).active = false) → t = s)

/-- R119 with R145: after a STOPALL the next SAMPLE returns 128 and steps neither a phase nor the LFSR. -/
def Obligations.StopAllSilencesTheNextSample : Prop :=
  ∀ (s : State) (ch : BitVec 8),
    ∃ t, execAll [.stopall ch, .sample] s = .next t ∧ t.block.out = 128#8 ∧ t.block.lfsr = s.block.lfsr ∧
      ∀ i : Fin 4, (t.block.channel i).phase = (s.block.channel i).phase

/-- R120: TICK steps only active channels, touches only channel state, and what becomes of a channel depends
on no other channel and on no block register. -/
def Obligations.TickStepsEachActiveChannelAlone : Prop :=
  ∀ s : State, ∃ t, exec .tick s = .next t ∧
    t.block.lfsr = s.block.lfsr ∧ t.block.masterVolume = s.block.masterVolume ∧
    t.block.out = s.block.out ∧ t = s.withBlock t.block ∧
    (∀ i : Fin 4, (s.block.channel i).active = false → t.block.channel i = s.block.channel i) ∧
    (∀ i : Fin 4, (t.block.channel i).looping = (s.block.channel i).looping ∧
      (t.block.channel i).phase = (s.block.channel i).phase) ∧
    ∀ (s' t' : State) (i j : Fin 4), s'.roms = s.roms → s'.block.channel j = s.block.channel i →
      exec .tick s' = .next t' → t'.block.channel j = t.block.channel i

/-- R121: TICK on an active channel, by the sequence of its record: the same note while time is left, a wrap
to `loopStart`, the end after note 31, or the next note. Idle channels and the block's registers are unchanged. -/
def Obligations.TickFollowsTheSequence : Prop :=
  (∀ w : Word, w.extractLsb' 28 4 = 2#4 → decode w = .tick) ∧
  ∀ (s : State) (i : Fin 4), Block.Inv s.roms s.block → (s.block.channel i).active = true →
    let c := s.block.channel i
    let ls := ((Roms.header s.roms c.sfx.toNat).extractLsb' 8 8).toNat
    let le := ((Roms.header s.roms c.sfx.toNat).extractLsb' 16 8).toNat
    ∃ t, exec .tick s = .next t ∧
      t.block.lfsr = s.block.lfsr ∧ t.block.masterVolume = s.block.masterVolume ∧
      t.block.out = s.block.out ∧ t = s.withBlock t.block ∧
      (∀ j : Fin 4, (s.block.channel j).active = false → t.block.channel j = s.block.channel j) ∧
      (c.sampleCount.toNat + 367 < c.samplesPerNote.toNat →
        t.block.channel i = { c with sampleCount := BitVec.ofNat 16 (c.sampleCount.toNat + 367) }) ∧
      (c.samplesPerNote.toNat ≤ c.sampleCount.toNat + 367 →
        (c.looping = true → le ≤ c.noteIndex.toNat + 1 →
          ls ≤ 31 ∧ Channel.NoteLoaded s.roms c (t.block.channel i) ls) ∧
        ((c.looping = false ∨ c.noteIndex.toNat + 1 < le) → c.noteIndex.toNat = 31 →
          t.block.channel i = { c with sampleCount := 0#16, active := false }) ∧
        ((c.looping = false ∨ c.noteIndex.toNat + 1 < le) → c.noteIndex.toNat < 31 →
          Channel.NoteLoaded s.roms c (t.block.channel i) (c.noteIndex.toNat + 1)))

/-- R123: a note freshly loaded lasts `ceil(samplesPerNote / 367)` TICKs, with the table of R123. -/
def Obligations.NoteLastsItsTicks : Prop :=
  ([0, 1, 2, 3, 4, 5, 6, 8, 16, 255].map (fun v => (samplesPerNoteOf v, (samplesPerNoteOf v + 366) / 367)) =
    [(183, 1), (183, 1), (366, 1), (549, 2), (732, 2), (915, 3), (1098, 3), (1464, 4), (2928, 8), (46665, 128)]) ∧
  ∀ (s : State) (i : Fin 4), Block.Inv s.roms s.block → (s.block.channel i).active = true →
    (s.block.channel i).sampleCount = 0#16 →
    (∀ j, j < (s.block.channel i).ticksPerNote →
      ∃ t, execAll (List.replicate j .tick) s = .next t ∧
        t.block.channel i = { s.block.channel i with sampleCount := BitVec.ofNat 16 (367 * j) }) ∧
    ∃ t, execAll (List.replicate (s.block.channel i).ticksPerNote .tick) s = .next t ∧
      t.block.channel i = Channel.advance s.roms (s.block.channel i)

/-- R122, looping with `loopEnd <= 32`: with no Dead note before `loopEnd` the channel never stops, never leaves
the notes below `loopEnd`, and never falls below `loopStart` once past it. -/
def Obligations.LoopingVoiceStaysInItsLoop : Prop :=
  ∀ (s : State) (i : Fin 4) (n : Nat), Block.Inv s.roms s.block → (s.block.channel i).active = true →
    (s.block.channel i).looping = true →
    headerLoopEnd (Roms.header s.roms (s.block.channel i).sfx.toNat) ≤ 32 →
    (s.block.channel i).noteIndex.toNat < headerLoopEnd (Roms.header s.roms (s.block.channel i).sfx.toNat) →
    (∀ k, k < headerLoopEnd (Roms.header s.roms (s.block.channel i).sfx.toNat) →
      noteClass (Roms.note s.roms (s.block.channel i).sfx.toNat k) ≠ .dead) →
    ∃ t, execAll (List.replicate n .tick) s = .next t ∧ (t.block.channel i).active = true ∧
      (t.block.channel i).noteIndex.toNat < headerLoopEnd (Roms.header s.roms (s.block.channel i).sfx.toNat) ∧
      (headerLoopStart (Roms.header s.roms (s.block.channel i).sfx.toNat) ≤ (s.block.channel i).noteIndex.toNat →
        headerLoopStart (Roms.header s.roms (s.block.channel i).sfx.toNat) ≤ (t.block.channel i).noteIndex.toNat)

/-- R122, non-looping or `loopEnd >= 33`: from note 0, with no Dead note, the channel plays notes 0 to 31 in
turn, each for its TICKs (R123), and then stops with the index at 31. -/
def Obligations.NonLoopingVoicePlaysEveryNoteOnce : Prop :=
  ∀ (s : State) (i : Fin 4), Block.Inv s.roms s.block → (s.block.channel i).active = true →
    (s.block.channel i).noteIndex = 0#5 → (s.block.channel i).sampleCount = 0#16 →
    ((s.block.channel i).looping = false ∨
      33 ≤ headerLoopEnd (Roms.header s.roms (s.block.channel i).sfx.toNat)) →
    (∀ k, 1 ≤ k → k ≤ 31 → noteClass (Roms.note s.roms (s.block.channel i).sfx.toNat k) ≠ .dead) →
    (∀ k j, k ≤ 31 → j < (s.block.channel i).ticksPerNote →
      ∃ t, execAll (List.replicate (k * (s.block.channel i).ticksPerNote + j) .tick) s = .next t ∧
        (t.block.channel i).active = true ∧ (t.block.channel i).noteIndex.toNat = k) ∧
    ∃ t, execAll (List.replicate (32 * (s.block.channel i).ticksPerNote) .tick) s = .next t ∧
      (t.block.channel i).active = false ∧ (t.block.channel i).noteIndex.toNat = 31

/-- R141 with R144: SAMPLE's output, LFSR and phases, channel by channel. `raw i` is the amplitude of channel `i`: the
`steps i + 1`-th LFSR output for noise, `steps i` being the contributing noise channels below `i`. -/
def Obligations.SampleMixesTheContributors : Prop :=
  (∀ w : Word, w.extractLsb' 28 4 = 3#4 → decode w = .sample) ∧
  ∀ s : State, ∃ t, exec .sample s = .next t ∧
    let on := fun i : Fin 4 => (s.block.channel i).active && decide (0 < (s.block.channel i).volume.toNat)
    let noisy := fun i : Fin 4 => on i && decide ((s.block.channel i).waveform = 6#3)
    let steps := fun i : Fin 4 => ((List.finRange 4).filter (fun j => decide (j < i) && noisy j)).length
    let raw := fun i : Fin 4 =>
      if (s.block.channel i).waveform = 6#3 then (lfsrAfter (steps i + 1) s.block.lfsr).extractLsb' 0 8
      else (gen (s.block.channel i).waveform (s.block.channel i).phase s.block.lfsr).raw
    let dev := fun i : Fin 4 => tdiv ((((raw i).toNat : Int) - 128) * ((s.block.channel i).volume.toNat : Int)) 7
    let n := ((List.finRange 4).filter on).length
    let total := (((List.finRange 4).filter on).map dev).sum
    let mix := if n = 0 then 0 else tdiv total (n : Int)
    (t.block.out.toNat : Int) = clamp (128 + tdiv (mix * (s.block.masterVolume.toNat : Int)) 255) 0 255 ∧
    t.block.lfsr = lfsrAfter ((List.finRange 4).filter noisy).length s.block.lfsr ∧
    (∀ i : Fin 4, t.block.channel i =
      { s.block.channel i with
        phase := if on i then
            BitVec.ofNat 16 (((s.block.channel i).phase.toNat + (s.block.channel i).phaseIncrement.toNat) % 65536)
          else (s.block.channel i).phase }) ∧
    t.block.masterVolume = s.block.masterVolume ∧ t = s.withBlock t.block

/-- R145: the ranges of every step of the mix, and so a clamp that never acts and silence at volumes 0 and 1. -/
def Obligations.MixStaysInRange : Prop :=
  (∀ (raw : Byte) (v : BitVec 3), -128 ≤ delta raw v ∧ delta raw v ≤ 127) ∧
  (∀ (b : Block) (mv : BitVec 8),
    let acc := mixAll b.lfsr b.ch.toList
    acc.n ≤ 4 ∧ -512 ≤ acc.sum ∧ acc.sum ≤ 508 ∧ -128 ≤ mixOf acc ∧ mixOf acc ≤ 127 ∧
    -128 ≤ tdiv (mixOf acc * (mv.toNat : Int)) 255 ∧ tdiv (mixOf acc * (mv.toNat : Int)) 255 ≤ 127 ∧
    outputValue (mixOf acc) mv = 128 + tdiv (mixOf acc * (mv.toNat : Int)) 255) ∧
  ∀ s : State, s.block.masterVolume.toNat ≤ 1 → ∃ t, exec .sample s = .next t ∧ t.block.out = 128#8

/-- R144 and R172: a SAMPLE to which no channel contributes returns 128 and changes nothing else. -/
def Obligations.SilentSampleReturns128 : Prop :=
  ∀ s : State,
    (∀ i : Fin 4, (s.block.channel i).active = false ∨ (s.block.channel i).volume = 0#3) →
      exec .sample s = .next (s.withBlock { s.block with out := 128#8 })

/-- R142: the table of deviations, and when a channel contributes. -/
def Obligations.DeviationsAreThoseListed : Prop :=
  (∀ c : Channel, contributes c = true ↔ c.active = true ∧ 0 < c.volume.toNat) ∧
  (∀ (raw : Byte) (v : BitVec 3), delta raw v = Int.tdiv (((raw.toNat : Int) - 128) * v.toNat) 7) ∧
  [1#3, 2#3, 3#3, 4#3, 5#3, 6#3, 7#3].map
      (fun v => [0#8, 1#8, 64#8, 127#8, 128#8, 129#8, 192#8, 255#8].map (fun raw => delta raw v)) =
    [[-18, -18, -9, 0, 0, 0, 9, 18], [-36, -36, -18, 0, 0, 0, 18, 36], [-54, -54, -27, 0, 0, 0, 27, 54],
     [-73, -72, -36, 0, 0, 0, 36, 72], [-91, -90, -45, 0, 0, 0, 45, 90], [-109, -108, -54, 0, 0, 0, 54, 108],
     [-128, -127, -64, -1, 0, 1, 64, 127]]

/-- R143: `out` as a function of the mix and the master volume, the range of their product, and the table of values. -/
def Obligations.OutputsAreThoseListed : Prop :=
  (∀ (mix : Int) (mv : BitVec 8),
    outputValue mix mv = min (max (128 + Int.tdiv (mix * mv.toNat) 255) 0) 255) ∧
  (∀ s : State, ∃ t, exec .sample s = .next t ∧
    (t.block.out.toNat : Int) = outputValue (mixOf (mixAll s.block.lfsr s.block.ch.toList)) s.block.masterVolume ∧
    -32640 ≤ mixOf (mixAll s.block.lfsr s.block.ch.toList) * s.block.masterVolume.toNat ∧
    mixOf (mixAll s.block.lfsr s.block.ch.toList) * s.block.masterVolume.toNat ≤ 32385) ∧
  [0#8, 1#8, 127#8, 128#8, 254#8, 255#8].map
      (fun mv => [-128, -127, -64, -1, 0, 1, 64, 127].map (fun mix => outputValue mix mv)) =
    [[128, 128, 128, 128, 128, 128, 128, 128], [128, 128, 128, 128, 128, 128, 128, 128],
     [65, 65, 97, 128, 128, 128, 159, 191], [64, 65, 96, 128, 128, 128, 160, 191],
     [1, 2, 65, 128, 128, 128, 191, 254], [0, 1, 64, 127, 128, 129, 192, 255]]

/-- R146: SETVOL writes `masterVolume` only. The new value first shows in the next SAMPLE: 0 silences it, 255 is
unit gain. -/
def Obligations.SetVolumeShowsInTheNextSample : Prop :=
  (∀ w : Word, w.extractLsb' 28 4 = 4#4 → decode w = .setvol (w.extractLsb' 0 8)) ∧
  ∀ s : State,
    (∀ level, exec (.setvol level) s = .next (s.withBlock { s.block with masterVolume := level })) ∧
    (∃ t, execAll [.setvol 0, .sample] s = .next t ∧ t.block.out = 128#8) ∧
    ∃ t, execAll [.setvol 255, .sample] s = .next t ∧
      (t.block.out.toNat : Int) = 128 + mixOf (mixAll s.block.lfsr s.block.ch.toList)

/-- R189: a TRIGGER whose note 0 is Sounding, then n SAMPLEs: the channel's phase is n increments of note 0 from
0, its waveform and volume are note 0's. -/
def Obligations.TriggerThenSamplesFollowNoteZero : Prop :=
  ∀ (s : State) (ch : BitVec 8) (sfx : BitVec 15) (i : Fin 4) (n : Nat), ch.toNat = i.val →
    sfx.toNat < s.roms.numSfx → noteClass (Roms.note s.roms sfx.toNat 0) = .sounding →
    ∃ t, execAll (.trigger ch sfx :: List.replicate n .sample) s = .next t ∧
      (t.block.channel i).phase.toNat =
        n * (phaseInc s.roms (notePitch (Roms.note s.roms sfx.toNat 0))).toNat % 65536 ∧
      (t.block.channel i).waveform = noteWaveform (Roms.note s.roms sfx.toNat 0) ∧
      (t.block.channel i).volume = noteVolume (Roms.note s.roms sfx.toNat 0) ∧
      (t.block.channel i).active = true ∧ (t.block.channel i).noteIndex = 0#5 ∧
      (t.block.channel i).sampleCount = 0#16

/-- R161 and R163: a command with an ignore label changes nothing, a TRIGGER labelled as a dead first note leaves its
channel Idle, and both-out-of-range reports the sound-effect range first. -/
def Obligations.LabelsNameWhatHappened : Prop :=
  (∀ (i : Instr) (s : State) (l : IgnoreLabel), commandLabel i s = some l → l.isIgnore = true →
    exec i s = .next s) ∧
  (∀ (s : State) (ch : BitVec 8) (sfx : BitVec 15), commandLabel (.trigger ch sfx) s = some .deadFirstNote →
    ∃ (i : Fin 4) (t : State), ch.toNat = i.val ∧ exec (.trigger ch sfx) s = .next t ∧
      (t.block.channel i).active = false) ∧
  (∀ s : State, commandLabel .tick s = some .deadNote →
    ∃ (i : Fin 4) (t : State), exec .tick s = .next t ∧ (s.block.channel i).active = true ∧
      (t.block.channel i).active = false) ∧
  (∀ (s : State) (ch : BitVec 8) (sfx : BitVec 15), s.roms.numSfx ≤ sfx.toNat → 4 ≤ ch.toNat →
    commandLabel (.trigger ch sfx) s = some .ignSfxRange) ∧
  ∀ (s : State) (c : Context) (a : Access), busLabel a = some .ignBus → s.accept c a = .served s

/-! ## Generators and noise -/

/-- R91: the triangle's two forms, its symmetry, its steps of 128 phases and its corners. -/
def Obligations.TriangleIsItsBitFormAndSymmetric : Prop :=
  (∀ p : BitVec 16, tri p =
    if p.getLsbD 15 then p.extractLsb' 7 8 ^^^ 0xFF#8 else p.extractLsb' 7 8) ∧
  (∀ p : BitVec 16, (tri p).toNat = if p.toNat < 32768 then p.toNat / 128 else (65535 - p.toNat) / 128) ∧
  (∀ p : BitVec 16, tri p = tri (65535#16 - p)) ∧
  (∀ p q : BitVec 16, p.toNat / 128 = q.toNat / 128 → tri p = tri q) ∧
  tri 0#16 = 0#8 ∧ tri 127#16 = 0#8 ∧ tri 128#16 = 1#8 ∧ tri 32767#16 = 255#8 ∧ tri 32768#16 = 255#8 ∧
  tri 65535#16 = 0#8 ∧ tri 0x4000#16 = 128#8

/-- R90 and R92 to R98 but noise: which waveform id picks which generator, and each generator as its law over the phase. -/
def Obligations.GeneratorsFollowTheirLaws : Prop :=
  ∀ p : BitVec 16,
    (saw p).toNat = p.toNat / 256 ∧ tsaw p = saw p ∧
    squareWave p = (if p.getLsbD 15 then 0#8 else 255#8) ∧
    pulse p = (if p.extractLsb' 14 2 = 0#2 then 255#8 else 0#8) ∧
    (p.toNat ≤ 0x3FFF → organ p = 255#8) ∧
    (0x4000 ≤ p.toNat → p.toNat ≤ 0xBFFF → organ p = 127#8) ∧
    (0xC000 ≤ p.toNat → organ p = 0#8) ∧
    (phaser p).toNat = (p.toNat / 256 + (p.toNat / 256 + 32) % 256) / 2 ∧
    ∀ l : BitVec 16,
      (gen 0#3 p l).raw = tri p ∧ (gen 1#3 p l).raw = tsaw p ∧ (gen 2#3 p l).raw = saw p ∧
      (gen 3#3 p l).raw = squareWave p ∧ (gen 4#3 p l).raw = pulse p ∧ (gen 5#3 p l).raw = organ p ∧
      (gen 7#3 p l).raw = phaser p

/-- R100: for every id but 6 the generator depends only on `p[15:7]`, is the waveform ROM's byte at that address,
and leaves the LFSR alone. -/
def Obligations.WaveformRomHoldsTheGenerators : Prop :=
  ∀ (w : BitVec 3) (p lfsr : BitVec 16), w ≠ 6#3 →
    waveRom w (p.extractLsb' 7 9) = some (gen w p lfsr).raw ∧ (gen w p lfsr).lfsr = lfsr

/-- R97: one call of the noise generator steps the LFSR once by its four taps and returns the low byte of the new
value, whatever the phase. 0 is a fixed point, and from any other value the LFSR never reaches 0. -/
def Obligations.NoiseReturnsTheNewLowByte : Prop :=
  (∀ p l : BitVec 16, (gen 6#3 p l).lfsr = lfsrNext l ∧ (gen 6#3 p l).raw = (lfsrNext l).extractLsb' 0 8) ∧
  (∀ l : BitVec 16, (lfsrNext l).toNat =
    l.toNat / 2 + (l.toNat + l.toNat / 4 + l.toNat / 8 + l.toNat / 32) % 2 * 32768) ∧
  (∀ (k : Nat) (l : BitVec 16), lfsrAfter k l = 0#16 ↔ l = 0#16) ∧
  gen 6#3 0#16 0xACE1#16 = { raw := 0x70#8, lfsr := 0x5670#16 }

/-- R101: the first sixteen register values from the seed. Their low bytes are the first sixteen outputs. -/
def Obligations.FirstSixteenNoiseValues : Prop :=
  (List.range 16).map (fun k => lfsrAfter (k + 1) Config.lfsrSeed) =
    [0x5670#16, 0xAB38#16, 0x559C#16, 0x2ACE#16, 0x1567#16, 0x8AB3#16, 0x4559#16, 0x22AC#16,
     0x9156#16, 0xC8AB#16, 0xE455#16, 0x722A#16, 0x3915#16, 0x1C8A#16, 0x8E45#16, 0x4722#16] ∧
  (List.range 16).map (fun k => (gen 6#3 0#16 (lfsrAfter k Config.lfsrSeed)).raw) =
    [0x70#8, 0x38#8, 0x9C#8, 0xCE#8, 0x67#8, 0xB3#8, 0x59#8, 0xAC#8,
     0x56#8, 0xAB#8, 0x55#8, 0x2A#8, 0x15#8, 0x8A#8, 0x45#8, 0x22#8]

/-- R101: from the seed the LFSR has period 65535 and visits every non-zero value. -/
def Obligations.NoisePeriodIs65535 : Prop :=
  Function.minimalPeriod lfsrNext Config.lfsrSeed = 65535 ∧
  ∀ x : BitVec 16, x ≠ 0#16 → ∃ k, k < 65535 ∧ lfsrAfter k Config.lfsrSeed = x

/-- R99: a SAMPLE steps the LFSR once for each contributing channel with waveform 6, and no other command steps it. -/
def Obligations.OnlyNoiseSamplesStepTheLfsr : Prop :=
  ∀ (i : Instr) (s t : State), exec i s = .next t →
    t.block.lfsr = (if i = .sample then
        lfsrAfter (s.block.ch.toList.filter (fun c => contributes c && decide (c.waveform = 6#3))).length s.block.lfsr
      else s.block.lfsr)

/-! ## The register window, reset, and steps -/

/-- A step runs the decoded command: when the access served is a command write and reset is released, the step is
`exec` of the word's command, at the state with that write taken off its list (20_memory.md R63). -/
def Obligations.StepRunsTheDecodedCommand : Prop :=
  (∀ (s : State) (c : Context) (w : Word) (rest : List Access), s.power = .released →
    s.granted = some (.context c) → (s.port c).pending = commandWrite w :: rest →
      step s = exec (decode w) (s.popPort c rest)) ∧
  (∀ (s : State) (i : Instr) (c : Context) (rest : List Access), i.wellFormed = true → s.power = .released →
    s.granted = some (.context c) → (s.port c).pending = commandWrite (encode i) :: rest →
      step s = exec i (s.popPort c rest)) ∧
  ∀ (s : State) (nbits w : Nat), step (s.withFetchWord nbits w) =
    exec (decode (BitVec.ofNat 32 (w % 2 ^ nbits))) ((s.withFetchWord nbits w).popPort .frame s.frame.pending)

/-- R41: reset sets every field of the block to the listed value, from any state, and leaves the ROMs (R43). That the
assert edge is one step (log 9), and that it leaves what the contexts have in flight and have read (log 22), are the
model's choices, not R41's words. -/
def Obligations.ResetSetsEveryField : Prop :=
  (∀ (s : State) (rest : List ResetEdge), s.granted = some .platform → s.platform = .assert :: rest →
    ∃ t, step s = .next t ∧ t.power = .asserted ∧ t.roms = s.roms ∧ t.sample = s.sample ∧
      t.frame = s.frame ∧ t.platform = rest ∧ t.block.masterVolume = 255#8 ∧ t.block.lfsr = 0xACE1#16 ∧
      t.block.out = 128#8 ∧
      ∀ i : Fin 4, (t.block.channel i).bound = false ∧ (t.block.channel i).sfx = 0#15 ∧
        (t.block.channel i).noteIndex = 0#5 ∧ (t.block.channel i).sampleCount = 0#16 ∧
        (t.block.channel i).samplesPerNote = 0#16 ∧ (t.block.channel i).phase = 0#16 ∧
        (t.block.channel i).phaseIncrement = 0#16 ∧ (t.block.channel i).volume = 0#3 ∧
        (t.block.channel i).waveform = 0#3 ∧ (t.block.channel i).active = false ∧
        (t.block.channel i).looping = false) ∧
  State.reset.block = Block.reset ∧ State.reset.power = .released

/-- R183 steps 1 and 2: power-on with the ROMs fixed, then the two edges of reset, reaches the reset state. -/
def Obligations.BootReachesTheResetState : Prop :=
  ∀ r : Roms, Host.Core.run Sys2Proof.core 2 (State.booting r) = .next { State.resetWith r with turn := 2 }

/-- The invariant holds at reset, with whatever legal ROMs are installed (R40, R41). -/
def Obligations.InvariantHoldsAtReset : Prop :=
  State.Inv State.reset ∧ ∀ r : Roms, Roms.wf r = true → State.Inv (State.resetWith r) ∧ State.Inv (State.powerOn r)

/-- R40 and R26, R30, R32, R33, R35, R101, R181 as one invariant: every step keeps it, whatever is served. -/
def Obligations.EveryStepKeepsTheInvariant : Prop :=
  ∀ s t : State, State.Inv s → step s = .next t → State.Inv t

/-- R40 (a), (b), (c), (d), (f) as the rule lists them, read off the invariant. -/
def Obligations.InvariantGivesTheListedBounds : Prop :=
  ∀ (r : Roms) (b : Block), Block.Inv r b →
    b.activeCount ≤ 4 ∧
    ∀ i : Fin 4, (b.channel i).noteIndex.toNat < 32 ∧
      ((b.channel i).bound = true → 183 ≤ (b.channel i).samplesPerNote.toNat ∧
        (b.channel i).samplesPerNote.toNat ≤ 46665) ∧
      ((b.channel i).active = true → (b.channel i).bound = true ∧
        (b.channel i).sampleCount.toNat ≤ 46664 ∧ (b.channel i).sampleCount.toNat + 367 ≤ 47031)

/-- R43: no step changes the ROMs. -/
def Obligations.NoStepChangesTheRoms : Prop :=
  ∀ s t : State, step s = .next t → t.roms = s.roms

/-- R160: once the block has been reset every step completes, and no step ever faults. -/
def Obligations.EveryStepCompletesAfterReset : Prop :=
  (∀ s : State, s.power ≠ .unreset → ∃ t, step s = .next t ∧ t.power ≠ .unreset) ∧
  ∀ (s : State) (f : Fault), step s ≠ .fault f

/-- R182: before the first reset a command write or an OUT read is refused. The model starts in the reset state. That a
read which straddles CMD and OUT, or runs past the window's end, counts as an OUT read here is the model's choice
(log 12). -/
def Obligations.CommandsAndOutReadsAreRefusedBeforeTheFirstReset : Prop :=
  State.reset.power = .released ∧ State.reset = State.resetWith State.reset.roms ∧
  ∀ (s : State) (c : Context) (a : Access) (rest : List Access), s.power = .unreset →
    s.granted = some (.context c) → (s.port c).pending = a :: rest →
    ((∃ w, a = .write 0 .w32 w) ∨ ∃ off wd, a = .read off wd ∧ 4 < off.val + wd.bytes) →
      step s = .refused .beforeReset

/-- R181: while reset is asserted a CMD write is taken and ignored, and a read of OUT returns 0x80. -/
def Obligations.ResetHoldsOffCommands : Prop :=
  ∀ (s : State) (c : Context) (rest : List Access), s.power = .asserted → s.granted = some (.context c) →
    (∀ w, (s.port c).pending = commandWrite w :: rest → step s = .next (s.popPort c rest)) ∧
    ∀ wd, (s.port c).pending = .read 4 wd :: rest →
      ∃ t, step s = .next t ∧ (t.port c).readData = some 0x00000080#32 ∧ t.block = s.block ∧ t.power = .asserted

/-- R58 to R60 and 92_eei_decisions.md D29: reads. OUT at offset 4 returns `out` zero-extended at every width, every
other read in the window returns 0 (within CMD, within OUT's upper bytes, from CMD into OUT), and no read changes the
block, so a second read returns the same. -/
def Obligations.ReadsReturnOutAndChangeNothing : Prop :=
  ∀ (s : State) (c : Context) (off : Fin 8) (wd : Width) (rest : List Access), s.power = .released →
    s.granted = some (.context c) → (s.port c).pending = .read off wd :: rest →
    ∃ t v, step s = .next t ∧ t = (s.popPort c rest).setPort c { pending := rest, readData := some v } ∧
      t.block = s.block ∧
      (off = 4 → v.toNat = s.block.out.toNat) ∧
      (off ≠ 4 → off.val + wd.bytes ≤ 8 → v = 0#32)

/-- R58 and R59: a write that is not an aligned 32-bit write of CMD is taken and ignored, whatever its data. -/
def Obligations.OtherWritesAreIgnored : Prop :=
  ∀ (s : State) (c : Context) (off : Fin 8) (wd : Width) (d : Word) (rest : List Access),
    s.granted = some (.context c) → (s.port c).pending = .write off wd d :: rest →
    (off ≠ 0 ∨ wd ≠ .w32) → step s = .next (s.popPort c rest)

/-- R58 and R61: a host access that starts inside the window reaches it at its offset from `HSA_BASE`, behind that
context's earlier accesses. One that lies wholly outside the window does not reach the block. The second clause, that
one which starts below the window and runs into it does not reach the block either, and the third's word on accesses
that run past the window's end, are the model's choices (log 14). -/
def Obligations.OnlyWindowAccessesReachTheBlock : Prop :=
  ∀ (s : State) (c : Context) (addr : Nat) (wd : Width) (d : Word),
    ((addr + wd.bytes ≤ Config.hsaBase ∨ Config.hsaBase + 8 ≤ addr) →
      s.hostWrite c addr wd d = s ∧ s.hostRead c addr wd = s) ∧
    (addr < Config.hsaBase → Config.hsaBase < addr + wd.bytes →
      s.hostWrite c addr wd d = s ∧ s.hostRead c addr wd = s) ∧
    ∀ off : Fin 8, addr = Config.hsaBase + off.val →
      ((s.hostWrite c addr wd d).port c).pending = (s.port c).pending ++ [.write off wd d] ∧
      ((s.hostRead c addr wd).port c).pending = (s.port c).pending ++ [.read off wd] ∧
      (s.hostWrite c addr wd d).block = s.block ∧ (s.hostRead c addr wd).block = s.block

/-- R63 and R163: whichever agents have something pending, each of them can be the one served next, and only they can. The
agent a step serves is the one the free value `Config.arbiter` picks (log 7), none only if nothing is pending, and
what the step serves is that agent's oldest item. -/
def Obligations.EveryInterleavingIsAdmitted : Prop :=
  (∀ (l : List Agent) (a : Agent), a ∈ l ↔ ∃ k, pickAgent k l = some a) ∧
  (∀ (s : State) (a : Agent), a ∈ s.candidates ↔
    match a with
    | .context c => (s.port c).pending ≠ []
    | .platform => s.platform ≠ []) ∧
  (∀ s : State, s.granted = pickAgent (Config.arbiter s.turn) s.candidates ∧
    (s.granted = none ↔ s.candidates = []) ∧ (s.granted = none → step s = .next s)) ∧
  (∀ (s : State) (e : ResetEdge) (rest : List ResetEdge), s.granted = some .platform → s.platform = e :: rest →
    step s = .next ((s.popEdge rest).resetEdge e)) ∧
  ∀ (s : State) (c : Context) (a : Access) (rest : List Access), s.granted = some (.context c) →
    (s.port c).pending = a :: rest →
    (∀ u, (s.popPort c rest).accept c a = .served u → step s = .next u) ∧
    (∀ w u, (s.popPort c rest).accept c a = .command w u → step s = exec (decode w) u) ∧
    (∀ r, (s.popPort c rest).accept c a = .refuse r → step s = .refused r) ∧
    (s.popPort c rest).accept c a ≠ .wait

/-- R63 and R163: no command is dropped. Once reset, a step takes exactly the oldest item off the granted agent's list and
leaves every other list, runs the command when that item is a command write with reset released, and answers it when
it is a read. So with n accesses and edges issued, n steps serve them all. The lists are the model's own (log 6, log 7,
log 22). -/
def Obligations.NoAccessIsDropped : Prop :=
  (∀ s : State, s.power ≠ .unreset → s.pendingCount ≠ 0 →
    (∃ e rest t, s.granted = some .platform ∧ s.platform = e :: rest ∧ step s = .next t ∧
      t = (s.popEdge rest).resetEdge e ∧ t.platform = rest ∧ t.sample = s.sample ∧ t.frame = s.frame) ∨
    ∃ c a rest t, s.granted = some (.context c) ∧ (s.port c).pending = a :: rest ∧ step s = .next t ∧
      (t.port c).pending = rest ∧ (∀ d, d ≠ c → t.port d = s.port d) ∧ t.platform = s.platform ∧
      (∀ w, a = commandWrite w → s.power = .released → exec (decode w) (s.popPort c rest) = .next t) ∧
      (∀ off wd, a = .read off wd → (t.port c).readData = some ((s.popPort c rest).readValue off wd)) ∧
      (((∀ w, a ≠ commandWrite w) ∨ s.power = .asserted) → t.block = s.block)) ∧
  ∀ s : State, s.power ≠ .unreset →
    ∃ t, Host.Core.run Sys2Proof.core s.pendingCount s = .next t ∧ t.pendingCount = 0
end

