-- ==== Sys2Proof/Laws/State.lean ====
section
/-! SUPPORT. One lemma per field per update of the state's records, each true by `rfl`, so that no later
proof unfolds a record update. -/

namespace Sys2Proof.Machine


/-! ### `Channel.loadFields` -/

@[simp] theorem Channel.loadFields_bound (n : Half) (c : Channel) : (c.loadFields n).bound = c.bound := rfl
@[simp] theorem Channel.loadFields_sfx (n : Half) (c : Channel) : (c.loadFields n).sfx = c.sfx := rfl
@[simp] theorem Channel.loadFields_noteIndex (n : Half) (c : Channel) : (c.loadFields n).noteIndex = c.noteIndex := rfl
@[simp] theorem Channel.loadFields_sampleCount (n : Half) (c : Channel) : (c.loadFields n).sampleCount = c.sampleCount := rfl
@[simp] theorem Channel.loadFields_samplesPerNote (n : Half) (c : Channel) : (c.loadFields n).samplesPerNote = c.samplesPerNote := rfl
@[simp] theorem Channel.loadFields_phase (n : Half) (c : Channel) : (c.loadFields n).phase = c.phase := rfl
@[simp] theorem Channel.loadFields_phaseIncrement (n : Half) (c : Channel) : (c.loadFields n).phaseIncrement = c.phaseIncrement := rfl
@[simp] theorem Channel.loadFields_volume (n : Half) (c : Channel) : (c.loadFields n).volume = noteVolume n := rfl
@[simp] theorem Channel.loadFields_waveform (n : Half) (c : Channel) : (c.loadFields n).waveform = noteWaveform n := rfl
@[simp] theorem Channel.loadFields_active (n : Half) (c : Channel) : (c.loadFields n).active = c.active := rfl
@[simp] theorem Channel.loadFields_looping (n : Half) (c : Channel) : (c.loadFields n).looping = c.looping := rfl

/-! ### `Channel.bind` -/

@[simp] theorem Channel.bind_bound (r : Roms) (x : BitVec 15) (c : Channel) : (c.bind r x).bound = true := rfl
@[simp] theorem Channel.bind_sfx (r : Roms) (x : BitVec 15) (c : Channel) : (c.bind r x).sfx = x := rfl
@[simp] theorem Channel.bind_noteIndex (r : Roms) (x : BitVec 15) (c : Channel) : (c.bind r x).noteIndex = 0#5 := rfl
@[simp] theorem Channel.bind_sampleCount (r : Roms) (x : BitVec 15) (c : Channel) : (c.bind r x).sampleCount = 0#16 := rfl
@[simp] theorem Channel.bind_samplesPerNote (r : Roms) (x : BitVec 15) (c : Channel) : (c.bind r x).samplesPerNote = BitVec.ofNat 16 (samplesPerNoteOf (headerSpeed (Roms.header r x.toNat))) := rfl
@[simp] theorem Channel.bind_phase (r : Roms) (x : BitVec 15) (c : Channel) : (c.bind r x).phase = 0#16 := rfl
@[simp] theorem Channel.bind_phaseIncrement (r : Roms) (x : BitVec 15) (c : Channel) : (c.bind r x).phaseIncrement = c.phaseIncrement := rfl
@[simp] theorem Channel.bind_volume (r : Roms) (x : BitVec 15) (c : Channel) : (c.bind r x).volume = c.volume := rfl
@[simp] theorem Channel.bind_waveform (r : Roms) (x : BitVec 15) (c : Channel) : (c.bind r x).waveform = c.waveform := rfl
@[simp] theorem Channel.bind_active (r : Roms) (x : BitVec 15) (c : Channel) : (c.bind r x).active = c.active := rfl
@[simp] theorem Channel.bind_looping (r : Roms) (x : BitVec 15) (c : Channel) : (c.bind r x).looping = loopingFlag (Roms.header r x.toNat) := rfl

/-! ### `Channel.startNote` -/

@[simp] theorem Channel.startNote_bound (r : Roms) (n : Half) (c : Channel) : (c.startNote r n).bound = c.bound := rfl
@[simp] theorem Channel.startNote_sfx (r : Roms) (n : Half) (c : Channel) : (c.startNote r n).sfx = c.sfx := rfl
@[simp] theorem Channel.startNote_noteIndex (r : Roms) (n : Half) (c : Channel) : (c.startNote r n).noteIndex = c.noteIndex := rfl
@[simp] theorem Channel.startNote_sampleCount (r : Roms) (n : Half) (c : Channel) : (c.startNote r n).sampleCount = c.sampleCount := rfl
@[simp] theorem Channel.startNote_samplesPerNote (r : Roms) (n : Half) (c : Channel) : (c.startNote r n).samplesPerNote = c.samplesPerNote := rfl
@[simp] theorem Channel.startNote_phase (r : Roms) (n : Half) (c : Channel) : (c.startNote r n).phase = c.phase := rfl
@[simp] theorem Channel.startNote_phaseIncrement (r : Roms) (n : Half) (c : Channel) : (c.startNote r n).phaseIncrement = if noteClass n = .sounding then phaseInc r (notePitch n) else c.phaseIncrement := rfl
@[simp] theorem Channel.startNote_volume (r : Roms) (n : Half) (c : Channel) : (c.startNote r n).volume = noteVolume n := rfl
@[simp] theorem Channel.startNote_waveform (r : Roms) (n : Half) (c : Channel) : (c.startNote r n).waveform = noteWaveform n := rfl
@[simp] theorem Channel.startNote_active (r : Roms) (n : Half) (c : Channel) : (c.startNote r n).active = activeAfterTrigger n := rfl
@[simp] theorem Channel.startNote_looping (r : Roms) (n : Half) (c : Channel) : (c.startNote r n).looping = c.looping := rfl

/-! ### `Channel.stop` -/

@[simp] theorem Channel.stop_bound (c : Channel) : (c.stop).bound = c.bound := rfl
@[simp] theorem Channel.stop_sfx (c : Channel) : (c.stop).sfx = c.sfx := rfl
@[simp] theorem Channel.stop_noteIndex (c : Channel) : (c.stop).noteIndex = c.noteIndex := rfl
@[simp] theorem Channel.stop_sampleCount (c : Channel) : (c.stop).sampleCount = c.sampleCount := rfl
@[simp] theorem Channel.stop_samplesPerNote (c : Channel) : (c.stop).samplesPerNote = c.samplesPerNote := rfl
@[simp] theorem Channel.stop_phase (c : Channel) : (c.stop).phase = c.phase := rfl
@[simp] theorem Channel.stop_phaseIncrement (c : Channel) : (c.stop).phaseIncrement = c.phaseIncrement := rfl
@[simp] theorem Channel.stop_volume (c : Channel) : (c.stop).volume = c.volume := rfl
@[simp] theorem Channel.stop_waveform (c : Channel) : (c.stop).waveform = c.waveform := rfl
@[simp] theorem Channel.stop_active (c : Channel) : (c.stop).active = false := rfl
@[simp] theorem Channel.stop_looping (c : Channel) : (c.stop).looping = c.looping := rfl

/-! ### `Channel.countFrame` -/

@[simp] theorem Channel.countFrame_bound (c : Channel) : (c.countFrame).bound = c.bound := rfl
@[simp] theorem Channel.countFrame_sfx (c : Channel) : (c.countFrame).sfx = c.sfx := rfl
@[simp] theorem Channel.countFrame_noteIndex (c : Channel) : (c.countFrame).noteIndex = c.noteIndex := rfl
@[simp] theorem Channel.countFrame_sampleCount (c : Channel) : (c.countFrame).sampleCount = c.sampleCount + BitVec.ofNat 16 Config.tickInc := rfl
@[simp] theorem Channel.countFrame_samplesPerNote (c : Channel) : (c.countFrame).samplesPerNote = c.samplesPerNote := rfl
@[simp] theorem Channel.countFrame_phase (c : Channel) : (c.countFrame).phase = c.phase := rfl
@[simp] theorem Channel.countFrame_phaseIncrement (c : Channel) : (c.countFrame).phaseIncrement = c.phaseIncrement := rfl
@[simp] theorem Channel.countFrame_volume (c : Channel) : (c.countFrame).volume = c.volume := rfl
@[simp] theorem Channel.countFrame_waveform (c : Channel) : (c.countFrame).waveform = c.waveform := rfl
@[simp] theorem Channel.countFrame_active (c : Channel) : (c.countFrame).active = c.active := rfl
@[simp] theorem Channel.countFrame_looping (c : Channel) : (c.countFrame).looping = c.looping := rfl

/-! ### `Channel.clearCount` -/

@[simp] theorem Channel.clearCount_bound (c : Channel) : (c.clearCount).bound = c.bound := rfl
@[simp] theorem Channel.clearCount_sfx (c : Channel) : (c.clearCount).sfx = c.sfx := rfl
@[simp] theorem Channel.clearCount_noteIndex (c : Channel) : (c.clearCount).noteIndex = c.noteIndex := rfl
@[simp] theorem Channel.clearCount_sampleCount (c : Channel) : (c.clearCount).sampleCount = 0#16 := rfl
@[simp] theorem Channel.clearCount_samplesPerNote (c : Channel) : (c.clearCount).samplesPerNote = c.samplesPerNote := rfl
@[simp] theorem Channel.clearCount_phase (c : Channel) : (c.clearCount).phase = c.phase := rfl
@[simp] theorem Channel.clearCount_phaseIncrement (c : Channel) : (c.clearCount).phaseIncrement = c.phaseIncrement := rfl
@[simp] theorem Channel.clearCount_volume (c : Channel) : (c.clearCount).volume = c.volume := rfl
@[simp] theorem Channel.clearCount_waveform (c : Channel) : (c.clearCount).waveform = c.waveform := rfl
@[simp] theorem Channel.clearCount_active (c : Channel) : (c.clearCount).active = c.active := rfl
@[simp] theorem Channel.clearCount_looping (c : Channel) : (c.clearCount).looping = c.looping := rfl

/-! ### `Channel.loadNote` -/

@[simp] theorem Channel.loadNote_bound (r : Roms) (t : BitVec 5) (c : Channel) : (c.loadNote r t).bound = c.bound := rfl
@[simp] theorem Channel.loadNote_sfx (r : Roms) (t : BitVec 5) (c : Channel) : (c.loadNote r t).sfx = c.sfx := rfl
@[simp] theorem Channel.loadNote_noteIndex (r : Roms) (t : BitVec 5) (c : Channel) : (c.loadNote r t).noteIndex = t := rfl
@[simp] theorem Channel.loadNote_sampleCount (r : Roms) (t : BitVec 5) (c : Channel) : (c.loadNote r t).sampleCount = c.sampleCount := rfl
@[simp] theorem Channel.loadNote_samplesPerNote (r : Roms) (t : BitVec 5) (c : Channel) : (c.loadNote r t).samplesPerNote = c.samplesPerNote := rfl
@[simp] theorem Channel.loadNote_phase (r : Roms) (t : BitVec 5) (c : Channel) : (c.loadNote r t).phase = c.phase := rfl
@[simp] theorem Channel.loadNote_phaseIncrement (r : Roms) (t : BitVec 5) (c : Channel) : (c.loadNote r t).phaseIncrement = match noteClass (Roms.note r c.sfx.toNat t.toNat) with | .sounding => phaseInc r (notePitch (Roms.note r c.sfx.toNat t.toNat)) | .rest => 0#16 | .dead => c.phaseIncrement := rfl
@[simp] theorem Channel.loadNote_volume (r : Roms) (t : BitVec 5) (c : Channel) : (c.loadNote r t).volume = noteVolume (Roms.note r c.sfx.toNat t.toNat) := rfl
@[simp] theorem Channel.loadNote_waveform (r : Roms) (t : BitVec 5) (c : Channel) : (c.loadNote r t).waveform = noteWaveform (Roms.note r c.sfx.toNat t.toNat) := rfl
@[simp] theorem Channel.loadNote_active (r : Roms) (t : BitVec 5) (c : Channel) : (c.loadNote r t).active = activeAfterTick (Roms.note r c.sfx.toNat t.toNat) := rfl
@[simp] theorem Channel.loadNote_looping (r : Roms) (t : BitVec 5) (c : Channel) : (c.loadNote r t).looping = c.looping := rfl

/-! ### `ChannelFile` and `Block` -/

@[simp] theorem Block.channel_mk (f : ChannelFile) (m : BitVec 8) (l : BitVec 16) (o : BitVec 8) (i : Fin 4) :
    Block.channel { ch := f, masterVolume := m, lfsr := l, out := o } i = f.get i := rfl

@[simp] theorem Block.updateChannel_masterVolume (b : Block) (i : Fin 4) (g : Channel → Channel) : (b.updateChannel i g).masterVolume = b.masterVolume := rfl
@[simp] theorem Block.updateChannel_lfsr (b : Block) (i : Fin 4) (g : Channel → Channel) : (b.updateChannel i g).lfsr = b.lfsr := rfl
@[simp] theorem Block.updateChannel_out (b : Block) (i : Fin 4) (g : Channel → Channel) : (b.updateChannel i g).out = b.out := rfl
@[simp] theorem Block.mapChannels_masterVolume (b : Block) (g : Channel → Channel) : (b.mapChannels g).masterVolume = b.masterVolume := rfl
@[simp] theorem Block.mapChannels_lfsr (b : Block) (g : Channel → Channel) : (b.mapChannels g).lfsr = b.lfsr := rfl
@[simp] theorem Block.mapChannels_out (b : Block) (g : Channel → Channel) : (b.mapChannels g).out = b.out := rfl
@[simp] theorem Block.updateChannel_ch (b : Block) (i : Fin 4) (g : Channel → Channel) :
    (b.updateChannel i g).ch = b.ch.set i (g (b.channel i)) := rfl
@[simp] theorem Block.mapChannels_ch (b : Block) (g : Channel → Channel) : (b.mapChannels g).ch = b.ch.map g := rfl
@[simp] theorem Block.setVolume_ch (b : Block) (v : BitVec 8) : (b.setVolume v).ch = b.ch := rfl
@[simp] theorem Block.setVolume_masterVolume (b : Block) (v : BitVec 8) : (b.setVolume v).masterVolume = v := rfl
@[simp] theorem Block.setVolume_lfsr (b : Block) (v : BitVec 8) : (b.setVolume v).lfsr = b.lfsr := rfl
@[simp] theorem Block.setVolume_out (b : Block) (v : BitVec 8) : (b.setVolume v).out = b.out := rfl
@[simp] theorem Block.sample_ch (b : Block) :
    b.sample.ch = b.ch.map Channel.advancePhase := rfl
@[simp] theorem Block.sample_masterVolume (b : Block) :
    b.sample.masterVolume = b.masterVolume := rfl
@[simp] theorem Block.sample_lfsr (b : Block) :
    b.sample.lfsr = (mixAll b.lfsr b.ch.toList).lfsr := rfl
@[simp] theorem Block.sample_out (b : Block) :
    b.sample.out = BitVec.ofInt 8 (outputValue (mixOf (mixAll b.lfsr b.ch.toList)) b.masterVolume) := rfl

/-! ### `State` -/

@[simp] theorem State.withBlock_block (s : State) (b : Block) : (s.withBlock b).block = b := rfl
@[simp] theorem State.withBlock_roms (s : State) (b : Block) : (s.withBlock b).roms = s.roms := rfl
@[simp] theorem State.withBlock_power (s : State) (b : Block) : (s.withBlock b).power = s.power := rfl
@[simp] theorem State.withBlock_sample (s : State) (b : Block) : (s.withBlock b).sample = s.sample := rfl
@[simp] theorem State.withBlock_frame (s : State) (b : Block) : (s.withBlock b).frame = s.frame := rfl
@[simp] theorem State.withBlock_platform (s : State) (b : Block) : (s.withBlock b).platform = s.platform := rfl
@[simp] theorem State.withBlock_turn (s : State) (b : Block) : (s.withBlock b).turn = s.turn := rfl
@[simp] theorem State.popEdge_block (s : State) (e : List ResetEdge) : (s.popEdge e).block = s.block := rfl
@[simp] theorem State.popEdge_roms (s : State) (e : List ResetEdge) : (s.popEdge e).roms = s.roms := rfl
@[simp] theorem State.popEdge_power (s : State) (e : List ResetEdge) : (s.popEdge e).power = s.power := rfl
@[simp] theorem State.popEdge_sample (s : State) (e : List ResetEdge) : (s.popEdge e).sample = s.sample := rfl
@[simp] theorem State.popEdge_frame (s : State) (e : List ResetEdge) : (s.popEdge e).frame = s.frame := rfl
@[simp] theorem State.popEdge_platform (s : State) (e : List ResetEdge) : (s.popEdge e).platform = e := rfl
@[simp] theorem State.popEdge_turn (s : State) (e : List ResetEdge) : (s.popEdge e).turn = s.turn + 1 := rfl
@[simp] theorem State.resetEdge_assert_block (s : State) : (s.resetEdge .assert).block = Block.reset := rfl
@[simp] theorem State.resetEdge_assert_roms (s : State) : (s.resetEdge .assert).roms = s.roms := rfl
@[simp] theorem State.resetEdge_assert_power (s : State) : (s.resetEdge .assert).power = .asserted := rfl
@[simp] theorem State.resetEdge_assert_sample (s : State) : (s.resetEdge .assert).sample = s.sample := rfl
@[simp] theorem State.resetEdge_assert_frame (s : State) : (s.resetEdge .assert).frame = s.frame := rfl
@[simp] theorem State.resetEdge_assert_platform (s : State) : (s.resetEdge .assert).platform = s.platform := rfl
@[simp] theorem State.resetEdge_assert_turn (s : State) : (s.resetEdge .assert).turn = s.turn := rfl
@[simp] theorem State.withCommand_block (s : State) (w : Word) : (s.withCommand w).block = s.block := rfl
@[simp] theorem State.withCommand_roms (s : State) (w : Word) : (s.withCommand w).roms = s.roms := rfl
@[simp] theorem State.withCommand_power (s : State) (w : Word) : (s.withCommand w).power = .released := rfl
@[simp] theorem State.withCommand_sample (s : State) (w : Word) : (s.withCommand w).sample = { s.sample with pending := [] } := rfl
@[simp] theorem State.withCommand_frame (s : State) (w : Word) : (s.withCommand w).frame = { s.frame with pending := commandWrite w :: s.frame.pending } := rfl
@[simp] theorem State.withCommand_platform (s : State) (w : Word) : (s.withCommand w).platform = [] := rfl
@[simp] theorem State.withCommand_turn (s : State) (w : Word) : (s.withCommand w).turn = s.turn := rfl
@[simp] theorem State.withBlock_self (s : State) : s.withBlock s.block = s := rfl
@[simp] theorem State.withBlock_withBlock (s : State) (b d : Block) : (s.withBlock b).withBlock d = s.withBlock d := rfl
@[simp] theorem State.withBlock_port (s : State) (b : Block) (c : Context) : (s.withBlock b).port c = s.port c := by
  cases c <;> rfl

@[simp] theorem State.setPort_block (s : State) (c : Context) (p : Port) : (s.setPort c p).block = s.block := by
  cases c <;> rfl
@[simp] theorem State.setPort_roms (s : State) (c : Context) (p : Port) : (s.setPort c p).roms = s.roms := by
  cases c <;> rfl
@[simp] theorem State.setPort_power (s : State) (c : Context) (p : Port) : (s.setPort c p).power = s.power := by
  cases c <;> rfl
@[simp] theorem State.setPort_platform (s : State) (c : Context) (p : Port) : (s.setPort c p).platform = s.platform := by
  cases c <;> rfl
@[simp] theorem State.setPort_turn (s : State) (c : Context) (p : Port) : (s.setPort c p).turn = s.turn := by
  cases c <;> rfl
@[simp] theorem State.setPort_port (s : State) (c : Context) (p : Port) : (s.setPort c p).port c = p := by
  cases c <;> rfl
@[simp] theorem State.setPort_setPort (s : State) (c : Context) (p q : Port) :
    (s.setPort c p).setPort c q = s.setPort c q := by
  cases c <;> rfl
theorem State.setPort_port_ne (s : State) (c d : Context) (p : Port) (h : d ≠ c) : (s.setPort c p).port d = s.port d := by
  cases c <;> cases d <;> first | rfl | exact absurd rfl h

@[simp] theorem State.popPort_block (s : State) (c : Context) (l : List Access) : (s.popPort c l).block = s.block := by
  cases c <;> rfl
@[simp] theorem State.popPort_roms (s : State) (c : Context) (l : List Access) : (s.popPort c l).roms = s.roms := by
  cases c <;> rfl
@[simp] theorem State.popPort_power (s : State) (c : Context) (l : List Access) : (s.popPort c l).power = s.power := by
  cases c <;> rfl
@[simp] theorem State.popPort_platform (s : State) (c : Context) (l : List Access) : (s.popPort c l).platform = s.platform := by
  cases c <;> rfl
@[simp] theorem State.popPort_turn (s : State) (c : Context) (l : List Access) : (s.popPort c l).turn = s.turn + 1 := by
  cases c <;> rfl
@[simp] theorem State.popPort_port (s : State) (c : Context) (l : List Access) :
    (s.popPort c l).port c = { s.port c with pending := l } := by
  cases c <;> rfl
theorem State.popPort_port_ne (s : State) (c d : Context) (l : List Access) (h : d ≠ c) :
    (s.popPort c l).port d = s.port d := by
  cases c <;> cases d <;> first | rfl | exact absurd rfl h

/-! ### Reset states -/

@[simp] theorem Block.reset_channel (i : Fin 4) : Block.reset.channel i = Channel.reset := by
  match i with
  | 0 => rfl
  | 1 => rfl
  | 2 => rfl
  | 3 => rfl
@[simp] theorem Block.reset_masterVolume : Block.reset.masterVolume = 255#8 := rfl
@[simp] theorem Block.reset_lfsr : Block.reset.lfsr = 0xACE1#16 := rfl
@[simp] theorem Block.reset_out : Block.reset.out = 128#8 := rfl
@[simp] theorem State.resetWith_block (r : Roms) : (State.resetWith r).block = Block.reset := rfl
@[simp] theorem State.resetWith_roms (r : Roms) : (State.resetWith r).roms = r := rfl
@[simp] theorem State.resetWith_power (r : Roms) : (State.resetWith r).power = .released := rfl
@[simp] theorem State.resetWith_sample (r : Roms) : (State.resetWith r).sample = Port.idle := rfl
@[simp] theorem State.resetWith_frame (r : Roms) : (State.resetWith r).frame = Port.idle := rfl
@[simp] theorem State.resetWith_platform (r : Roms) : (State.resetWith r).platform = [] := rfl
@[simp] theorem State.resetWith_turn (r : Roms) : (State.resetWith r).turn = 0 := rfl

end Sys2Proof.Machine
end

