-- ==== Sys2Proof/Laws/Channels.lean ====
section
/-! SUPPORT. The channel file: what a read sees after a write or a map, and equality channel by channel. -/

namespace Sys2Proof.Machine

/-- A channel reads as written, the others as before. -/
theorem ChannelFile.get_set (f : ChannelFile) (i j : Fin 4) (c : Channel) :
    (f.set i c).get j = if j = i then c else f.get j := by
  match i, j with
  | 0, 0 | 0, 1 | 0, 2 | 0, 3 | 1, 0 | 1, 1 | 1, 2 | 1, 3 | 2, 0 | 2, 1 | 2, 2 | 2, 3
  | 3, 0 | 3, 1 | 3, 2 | 3, 3 => rfl

@[simp] theorem ChannelFile.get_map (f : ChannelFile) (g : Channel → Channel) (i : Fin 4) :
    (f.map g).get i = g (f.get i) := by
  match i with
  | 0 | 1 | 2 | 3 => rfl

/-- Two channel files with the same four channels are equal. -/
theorem ChannelFile.ext_get {f g : ChannelFile} (h : ∀ i, f.get i = g.get i) : f = g := by
  obtain ⟨a0, a1, a2, a3⟩ := f
  obtain ⟨b0, b1, b2, b3⟩ := g
  have h0 := h 0
  have h1 := h 1
  have h2 := h 2
  have h3 := h 3
  simp only [ChannelFile.get] at h0 h1 h2 h3
  rw [h0, h1, h2, h3]

/-- Two blocks with the same channels and registers are equal. -/
theorem Block.ext_channel {b d : Block} (h : ∀ i, b.channel i = d.channel i)
    (hm : b.masterVolume = d.masterVolume) (hl : b.lfsr = d.lfsr) (ho : b.out = d.out) : b = d := by
  obtain ⟨f, m, l, o⟩ := b
  obtain ⟨f', m', l', o'⟩ := d
  simp only at hm hl ho
  rw [ChannelFile.ext_get (f := f) (g := f') h, hm, hl, ho]

@[simp] theorem Block.updateChannel_channel_same (b : Block) (i : Fin 4) (g : Channel → Channel) :
    (b.updateChannel i g).channel i = g (b.channel i) := by
  simp [Block.channel, ChannelFile.get_set]

theorem Block.updateChannel_channel_ne (b : Block) {i j : Fin 4} (g : Channel → Channel) (h : j ≠ i) :
    (b.updateChannel i g).channel j = b.channel j := by
  simp [Block.channel, ChannelFile.get_set, h]

@[simp] theorem Block.mapChannels_channel (b : Block) (g : Channel → Channel) (i : Fin 4) :
    (b.mapChannels g).channel i = g (b.channel i) := by
  simp [Block.channel]

@[simp] theorem Block.sample_channel (b : Block) (i : Fin 4) :
    b.sample.channel i = (b.channel i).advancePhase := by
  simp [Block.channel]

/-- An update that leaves the channel as it is leaves the block as it is. -/
theorem Block.updateChannel_eq_self (b : Block) (i : Fin 4) (g : Channel → Channel) (h : g (b.channel i) = b.channel i) :
    b.updateChannel i g = b := by
  refine Block.ext_channel (fun j => ?_) rfl rfl rfl
  by_cases hj : j = i
  · subst hj
    simp [h]
  · exact Block.updateChannel_channel_ne b g hj

/-- The channel file as a list is the four channels in ascending order. -/
theorem ChannelFile.toList_eq_map (f : ChannelFile) : f.toList = (List.finRange 4).map f.get := by
  simp [ChannelFile.toList, List.finRange_succ, ChannelFile.get]

/-- The channel index of an operand: the number itself below 4, none from 4 on. -/
theorem channelIndex_eq_some {ch : BitVec 8} {i : Fin 4} : channelIndex ch = some i ↔ ch.toNat = i.val := by
  unfold channelIndex
  split
  · rw [Option.some.injEq, Fin.ext_iff]
  · have := i.isLt
    constructor
    · intro h
      exact absurd h (by simp)
    · intro h
      omega

theorem channelIndex_eq_none {ch : BitVec 8} : channelIndex ch = none ↔ 4 ≤ ch.toNat := by
  unfold channelIndex
  split
  · constructor
    · intro h
      exact absurd h (by simp)
    · intro h
      omega
  · constructor
    · intro _
      omega
    · intro _
      rfl

end Sys2Proof.Machine
end

