-- ==== Sys2Proof/Laws/Encoding.lean ====
section
/-! SUPPORT. The fields of an encoded word, one lemma per field and format. -/

namespace Sys2Proof

theorem fieldOp_formatT (ch : BitVec 8) (sfx : BitVec 16) : fieldOp (encodeFormatT ch sfx) = 1#4 := by
  apply BitVec.eq_of_getLsbD_eq
  intro i hi
  have : i = 0 ∨ i = 1 ∨ i = 2 ∨ i = 3 := by omega
  rcases this with rfl | rfl | rfl | rfl <;> simp [fieldOp, encodeFormatT]

theorem fieldCh_formatT (ch : BitVec 8) (sfx : BitVec 16) : fieldCh (encodeFormatT ch sfx) = ch := by
  apply BitVec.eq_of_getLsbD_eq
  intro i hi
  have : i = 0 ∨ i = 1 ∨ i = 2 ∨ i = 3 ∨ i = 4 ∨ i = 5 ∨ i = 6 ∨ i = 7 := by omega
  rcases this with rfl | rfl | rfl | rfl | rfl | rfl | rfl | rfl <;> simp [fieldCh, encodeFormatT]

theorem fieldSfx_formatT (ch : BitVec 8) (sfx : BitVec 16) : fieldSfx (encodeFormatT ch sfx) = sfx := by
  apply BitVec.eq_of_getLsbD_eq
  intro i hi
  have h16 : i < 32 := by omega
  have hc : (0x10000000#32).getLsbD i = false := by
    have : i = 0 ∨ i = 1 ∨ i = 2 ∨ i = 3 ∨ i = 4 ∨ i = 5 ∨ i = 6 ∨ i = 7 ∨ i = 8 ∨ i = 9 ∨ i = 10 ∨ i = 11
        ∨ i = 12 ∨ i = 13 ∨ i = 14 ∨ i = 15 := by omega
    rcases this with rfl | rfl | rfl | rfl | rfl | rfl | rfl | rfl | rfl | rfl | rfl | rfl | rfl | rfl | rfl | rfl <;> rfl
  rw [BitVec.getLsbD_eq_getElem h16] at hc
  simp [fieldSfx, encodeFormatT, hi, hc, h16]

theorem fieldOp_setvol (level : BitVec 8) : fieldOp (encode (.setvol level)) = 4#4 := by
  apply BitVec.eq_of_getLsbD_eq
  intro i hi
  have : i = 0 ∨ i = 1 ∨ i = 2 ∨ i = 3 := by omega
  rcases this with rfl | rfl | rfl | rfl <;> simp [fieldOp, encode]

theorem fieldLevel_setvol (level : BitVec 8) : fieldLevel (encode (.setvol level)) = level := by
  apply BitVec.eq_of_getLsbD_eq
  intro i hi
  have : i = 0 ∨ i = 1 ∨ i = 2 ∨ i = 3 ∨ i = 4 ∨ i = 5 ∨ i = 6 ∨ i = 7 := by omega
  rcases this with rfl | rfl | rfl | rfl | rfl | rfl | rfl | rfl <;> simp [fieldLevel, encode]

theorem fieldOp_reserved (op : BitVec 4) : fieldOp (op.setWidth 32 <<< 28) = op := by
  apply BitVec.eq_of_getLsbD_eq
  intro i hi
  have : i = 0 ∨ i = 1 ∨ i = 2 ∨ i = 3 := by omega
  rcases this with rfl | rfl | rfl | rfl <;> simp [fieldOp]

/-- The word of a bit: what each field of a word says about it. -/
theorem getLsbD_fieldOp (w : Word) (i : Nat) (h : i < 4) : (fieldOp w).getLsbD i = w.getLsbD (28 + i) := by
  simp [fieldOp, h]

theorem getLsbD_fieldCh (w : Word) (i : Nat) (h : i < 8) : (fieldCh w).getLsbD i = w.getLsbD (16 + i) := by
  simp [fieldCh, h]

theorem getLsbD_fieldSfx (w : Word) (i : Nat) (h : i < 16) : (fieldSfx w).getLsbD i = w.getLsbD i := by
  simp [fieldSfx, h]

theorem getLsbD_fieldLevel (w : Word) (i : Nat) (h : i < 8) : (fieldLevel w).getLsbD i = w.getLsbD i := by
  simp [fieldLevel, h]

/-- A word of format T with its reserved bits zero is the concatenation of its fields. -/
theorem encodeFormatT_getLsbD (ch : BitVec 8) (sfx : BitVec 16) (i : Nat) (hi : i < 32) :
    (encodeFormatT ch sfx).getLsbD i =
      if i < 16 then sfx.getLsbD i else if i < 24 then ch.getLsbD (i - 16) else decide (i = 28) := by
  have hcases : i < 16 ∨ i = 16 ∨ i = 17 ∨ i = 18 ∨ i = 19 ∨ i = 20 ∨ i = 21 ∨ i = 22 ∨ i = 23 ∨ i = 24 ∨ i = 25
      ∨ i = 26 ∨ i = 27 ∨ i = 28 ∨ i = 29 ∨ i = 30 ∨ i = 31 := by omega
  rcases hcases with h | h | h | h | h | h | h | h | h | h | h | h | h | h | h | h | h
  · have := getLsbD_fieldSfx (encodeFormatT ch sfx) i h
    rw [fieldSfx_formatT] at this
    simp [← this, h]
  all_goals
    subst h
    simp [encodeFormatT]

end Sys2Proof
end

