-- ==== Sys2Proof/Laws/Memory.lean ====
section
/-! SUPPORT. The byte memory of the sound-effect ROM image: read after write, and every operation keeps
the canonical form. -/

namespace Sys2Proof.Machine

/-- Below the first listed address a canonical memory reads the unlisted byte. -/
theorem Memory.read_below {lo : Nat} {m : Memory} (h : Memory.wfFrom lo m = true) {a : Nat} (ha : a < lo) :
    Memory.read m a = Memory.unlisted := by
  induction m generalizing lo with
  | nil => rfl
  | cons cell rest ih =>
    obtain ⟨k, v⟩ := cell
    simp only [Memory.wfFrom, Bool.and_eq_true, decide_eq_true_eq] at h
    have hk : k ≠ a := by omega
    simp only [Memory.read, if_neg hk]
    exact ih h.2 (by omega)

/-- A canonical memory is canonical from any lower address. -/
theorem Memory.wfFrom_mono {lo lo' : Nat} {m : Memory} (h : Memory.wfFrom lo m = true) (hl : lo' ≤ lo) :
    Memory.wfFrom lo' m = true := by
  cases m with
  | nil => rfl
  | cons cell rest =>
    obtain ⟨k, v⟩ := cell
    simp only [Memory.wfFrom, Bool.and_eq_true, decide_eq_true_eq] at h ⊢
    exact ⟨⟨by omega, h.1.2⟩, h.2⟩

/-- Writing at or above the lower bound keeps the form. -/
theorem Memory.write_wfFrom {lo : Nat} {m : Memory} (h : Memory.wfFrom lo m = true) {a : Nat} (ha : lo ≤ a)
    (v : Byte) : Memory.wfFrom lo (Memory.write m a v) = true := by
  induction m generalizing lo with
  | nil =>
    simp only [Memory.write]
    split <;> simp_all [Memory.wfFrom]
  | cons cell rest ih =>
    obtain ⟨k, x⟩ := cell
    simp only [Memory.wfFrom, Bool.and_eq_true, decide_eq_true_eq] at h
    simp only [Memory.write]
    split
    · split
      · simp only [Memory.wfFrom, Bool.and_eq_true, decide_eq_true_eq]
        exact h
      · simp only [Memory.wfFrom, Bool.and_eq_true, decide_eq_true_eq]
        exact ⟨⟨ha, by assumption⟩, ⟨by omega, h.1.2⟩, h.2⟩
    · split
      · split
        · exact Memory.wfFrom_mono h.2 (by omega)
        · subst a
          simp only [Memory.wfFrom, Bool.and_eq_true, decide_eq_true_eq]
          exact ⟨⟨ha, by assumption⟩, h.2⟩
      · simp only [Memory.wfFrom, Bool.and_eq_true, decide_eq_true_eq]
        exact ⟨h.1, ih h.2 (by omega)⟩

/-- A write keeps the canonical form. -/
theorem Memory.write_wf {m : Memory} (h : Memory.wf m = true) (a : Nat) (v : Byte) :
    Memory.wf (Memory.write m a v) = true :=
  Memory.write_wfFrom h (Nat.zero_le a) v

/-- Building an image keeps the canonical form. -/
theorem Memory.load_wf {m : Memory} (h : Memory.wf m = true) (a : Nat) (vs : List Byte) :
    Memory.wf (Memory.load m a vs) = true := by
  induction vs generalizing m a with
  | nil => exact h
  | cons v vs ih => exact ih (Memory.write_wf h a v) (a + 1)

/-- The image of a list of records is canonical. -/
theorem Roms.ofRecords_sfx_wf (pitch : List Half) (recs : List SfxRecord) :
    Memory.wf (Roms.ofRecords pitch recs).sfx = true :=
  Memory.load_wf rfl 0 (imageBytes recs)

/-- What a write makes of a canonical memory: the written byte at its address, every other byte as before. -/
theorem Memory.read_write_from {lo : Nat} {m : Memory} (h : Memory.wfFrom lo m = true) (a : Nat) (v : Byte) (b : Nat) :
    Memory.read (Memory.write m a v) b = if b = a then v else Memory.read m b := by
  induction m generalizing lo with
  | nil =>
    by_cases hv : v = Memory.unlisted
    · simp [Memory.write, Memory.read, hv]
    · simp [Memory.write, Memory.read, hv, eq_comm]
  | cons cell rest ih =>
    obtain ⟨k, x⟩ := cell
    simp only [Memory.wfFrom, Bool.and_eq_true, decide_eq_true_eq] at h
    by_cases hak : a < k
    · by_cases hv : v = Memory.unlisted
      · by_cases hb : b = a
        · subst hb
          have hk : k ≠ b := by omega
          simp [Memory.write, Memory.read, hak, hv, hk, Memory.read_below h.2 (show b < k + 1 by omega)]
        · simp [Memory.write, hak, hv, hb]
      · by_cases hb : b = a
        · simp [Memory.write, Memory.read, hak, hv, hb]
        · have hba : a ≠ b := fun e => hb e.symm
          simp [Memory.write, Memory.read, hak, hv, hb, hba]
    · by_cases hk : a = k
      · subst hk
        by_cases hb : b = a
        · subst hb
          by_cases hv : v = Memory.unlisted
          · simp [Memory.write, hv, Memory.read_below h.2 (show b < b + 1 by omega)]
          · simp [Memory.write, Memory.read, hv]
        · have hba : a ≠ b := fun e => hb e.symm
          by_cases hv : v = Memory.unlisted
          · simp [Memory.write, Memory.read, hv, hb, hba]
          · simp [Memory.write, Memory.read, hv, hb, hba]
      · by_cases hkb : k = b
        · subst hkb
          have hba : k ≠ a := by omega
          simp [Memory.write, Memory.read, hak, hk, hba]
        · simp [Memory.write, Memory.read, hak, hk, hkb, ih h.2]

/-- A read after a write: the byte written at its address, every other byte as before. -/
theorem Memory.read_write {m : Memory} (h : Memory.wf m = true) (a : Nat) (v : Byte) (b : Nat) :
    Memory.read (Memory.write m a v) b = if b = a then v else Memory.read m b :=
  Memory.read_write_from h a v b

/-- A read after an image was built: the image's byte inside it, every other byte as before. -/
theorem Memory.read_load {m : Memory} (h : Memory.wf m = true) (a : Nat) (vs : List Byte) (b : Nat) :
    Memory.read (Memory.load m a vs) b =
      if a ≤ b ∧ b < a + vs.length then vs.getD (b - a) Memory.unlisted else Memory.read m b := by
  induction vs generalizing m a with
  | nil =>
    have hn : ¬(a ≤ b ∧ b < a + ([] : List Byte).length) := by simp
    rw [if_neg hn]
    rfl
  | cons v vs ih =>
    simp only [Memory.load, ih (Memory.write_wf h a v), Memory.read_write h, List.length_cons]
    by_cases hb : b = a
    · subst hb
      simp
    · by_cases hin : a + 1 ≤ b ∧ b < a + 1 + vs.length
      · have hin' : a ≤ b ∧ b < a + (vs.length + 1) := by omega
        have hsub : b - a = (b - (a + 1)) + 1 := by omega
        rw [if_pos hin, if_pos hin', hsub, List.getD_cons_succ]
      · have hin' : ¬(a ≤ b ∧ b < a + (vs.length + 1)) := by omega
        rw [if_neg hin, if_neg hin', if_neg hb]

/-- The stand-in ROMs are legal. -/
theorem Roms.blank_wf : Roms.wf Roms.blank = true := by decide

/-- The installed ROMs are legal, whatever the platform chose. -/
theorem Roms.installed_wf : Roms.wf Roms.installed = true := by
  unfold Roms.installed
  split
  · assumption
  · exact Roms.blank_wf

/-- A legal image is canonical, the reset state's among them. -/
theorem Roms.wf_sfx {r : Roms} (h : Roms.wf r = true) : Memory.wf r.sfx = true := by
  simp only [Roms.wf, Bool.and_eq_true] at h
  exact h.1.2

end Sys2Proof.Machine
end

