-- ==== Sys2Proof/Laws/Mixer.lean ====
section
/-! SUPPORT. What the generators, the mixer and the phase advance do, each said once. -/

namespace Sys2Proof.Machine

theorem contributes_iff {c : Channel} : contributes c = true ↔ c.active = true ∧ c.volume ≠ 0#3 := by
  simp [contributes]

/-- A channel that contributes advances its phase by its increment, modulo 65536, and nothing else of it. Any other
channel stays as it is (42_mixer.md R141). -/
theorem Channel.advancePhase_cases (c : Channel) :
    (contributes c = true ∧ c.advancePhase = { c with phase := c.phase + c.phaseIncrement }) ∨
    (contributes c = false ∧ c.advancePhase = c) := by
  cases h : contributes c
  · exact .inr ⟨rfl, by rw [Channel.advancePhase, h]; rfl⟩
  · exact .inl ⟨rfl, by rw [Channel.advancePhase, h]; rfl⟩

/-- What SAMPLE never writes of a channel (R141). -/
theorem Channel.advancePhase_keeps (c : Channel) :
    c.advancePhase.bound = c.bound ∧ c.advancePhase.sfx = c.sfx ∧ c.advancePhase.noteIndex = c.noteIndex ∧
      c.advancePhase.sampleCount = c.sampleCount ∧ c.advancePhase.samplesPerNote = c.samplesPerNote ∧
      c.advancePhase.phaseIncrement = c.phaseIncrement ∧ c.advancePhase.volume = c.volume ∧
      c.advancePhase.waveform = c.waveform ∧ c.advancePhase.active = c.active ∧ c.advancePhase.looping = c.looping := by
  rcases c.advancePhase_cases with ⟨_, h⟩ | ⟨_, h⟩ <;> rw [h] <;> simp

theorem mixChannel_off {acc : MixAcc} {c : Channel} (h : contributes c = false) : mixChannel acc c = acc := by
  rw [mixChannel, h]
  rfl

theorem mixChannel_on {acc : MixAcc} {c : Channel} (h : contributes c = true) :
    mixChannel acc c =
      { sum := acc.sum + delta (gen c.waveform c.phase acc.lfsr).raw c.volume
        n := acc.n + 1
        lfsr := (gen c.waveform c.phase acc.lfsr).lfsr } := by
  rw [mixChannel, h]
  rfl

/-- Waveform id 6 is noise, and no other id is (40_waveforms.md R90). -/
theorem waveOfId_noise {w : BitVec 3} : waveOfId w = .noise ↔ w = 6#3 := by
  revert w
  decide

/-- Noise steps the LFSR once and returns the low byte of the new value, whatever the phase (R97). -/
theorem gen_noise (p l : BitVec 16) : gen 6#3 p l = { raw := (lfsrNext l).extractLsb' 0 8, lfsr := lfsrNext l } := rfl

/-- Every other generator is a function of the phase and leaves the LFSR alone (R90). -/
theorem gen_pure {w : BitVec 3} (h : w ≠ 6#3) (p l : BitVec 16) :
    (gen w p l).lfsr = l ∧ pureGen (waveOfId w) p = some (gen w p l).raw := by
  cases hp : pureGen (waveOfId w) p with
  | some raw => simp [gen, hp]
  | none =>
    refine absurd (waveOfId_noise.mp ?_) h
    revert hp
    cases waveOfId w <;> simp [pureGen]

/-- Steps of the LFSR add up (R101). -/
theorem lfsrAfter_add (j k : Nat) (l : BitVec 16) : lfsrAfter (j + k) l = lfsrAfter k (lfsrAfter j l) := by
  induction j generalizing l with
  | zero => rw [Nat.zero_add, lfsrAfter]
  | succ j ih =>
    rw [Nat.succ_add]
    exact ih (lfsrNext l)

theorem lfsrAfter_succ (k : Nat) (l : BitVec 16) : lfsrAfter (k + 1) l = lfsrNext (lfsrAfter k l) :=
  lfsrAfter_add k 1 l

/-- The mix of four channels, one after another (R141). -/
theorem mixAll_file (l : BitVec 16) (f : ChannelFile) :
    mixAll l f.toList =
      mixChannel (mixChannel (mixChannel (mixChannel { sum := 0, n := 0, lfsr := l } f.c0) f.c1) f.c2) f.c3 := rfl

end Sys2Proof.Machine
end

