-- ==== Sys2Proof/Laws/PerInstr.lean ====
section
/-! SUPPORT. Facts about commands as syntax, one lemma per constructor of `Instr`. -/

namespace Sys2Proof.Laws

/-- The word of a well-formed command matches its own row of the opcode table (30_encoding.md R74, R80). -/
def RowMatch.Statement (i : Instr) : Prop :=
  i.wellFormed = true → ∃ r, opcodeTable[i.rowIndex]? = some r ∧ r.matchesWord (encode i) = true

/-- A masked format-T word equals a row's value when it does so bit by bit. -/
theorem masked_formatT {ch : BitVec 8} {sfx : BitVec 16} {mask value : Word}
    (h : ∀ i, i < 32 →
      ((if i < 16 then sfx.getLsbD i else if i < 24 then ch.getLsbD (i - 16) else decide (i = 28)) && mask.getLsbD i) =
        value.getLsbD i) :
    (encodeFormatT ch sfx &&& mask == value) = true := by
  rw [beq_iff_eq]
  apply BitVec.eq_of_getLsbD_eq
  intro i hi
  rw [BitVec.getLsbD_and, encodeFormatT_getLsbD ch sfx i hi]
  exact h i hi

theorem RowMatch.nop : RowMatch.Statement .nop := fun _ => ⟨_, rfl, rfl⟩

theorem RowMatch.stop (ch : BitVec 8) : RowMatch.Statement (.stop ch) := fun _ =>
  ⟨_, rfl, masked_formatT (fun i hi => by interval_cases i <;> simp)⟩

theorem RowMatch.stopall (ch : BitVec 8) : RowMatch.Statement (.stopall ch) := fun _ =>
  ⟨_, rfl, masked_formatT (fun i hi => by interval_cases i <;> simp)⟩

theorem RowMatch.trigger (ch : BitVec 8) (sfx : BitVec 15) : RowMatch.Statement (.trigger ch sfx) := fun _ =>
  ⟨_, rfl, masked_formatT (fun i hi => by interval_cases i <;> simp)⟩

/-- The reserved trigger's SFX has its top bit set (R74). -/
theorem sfx_bit15 {sfx : BitVec 16} (h : 0x8000 ≤ sfx.toNat) : sfx.getLsbD 15 = true := by
  have hlt := sfx.isLt
  rw [BitVec.getLsbD, Nat.testBit_eq_decide_div_mod_eq, decide_eq_true_eq]
  omega

theorem RowMatch.rsvdTrig (ch : BitVec 8) (sfx : BitVec 16) : RowMatch.Statement (.rsvdTrig ch sfx) := fun h => by
  simp only [Instr.wellFormed, Bool.and_eq_true, decide_eq_true_eq] at h
  have h15 := sfx_bit15 h.1
  exact ⟨_, rfl, masked_formatT (fun i hi => by interval_cases i <;> simp [h15])⟩

theorem RowMatch.tick : RowMatch.Statement .tick := fun _ => ⟨_, rfl, rfl⟩

theorem RowMatch.sample : RowMatch.Statement .sample := fun _ => ⟨_, rfl, rfl⟩

theorem RowMatch.setvol (level : BitVec 8) : RowMatch.Statement (.setvol level) := fun _ => by
  refine ⟨_, rfl, ?_⟩
  rw [Row.matchesWord, beq_iff_eq]
  apply BitVec.eq_of_getLsbD_eq
  intro i hi
  interval_cases i <;> simp [encode]

theorem RowMatch.rsvdOp5 : RowMatch.Statement .rsvdOp5 := fun _ => ⟨_, rfl, rfl⟩

theorem RowMatch.rsvdOp6_7 (op : BitVec 4) : RowMatch.Statement (.rsvdOp6_7 op) := fun h => by
  refine ⟨_, rfl, ?_⟩
  revert op
  decide

theorem RowMatch.rsvdOp8_F (op : BitVec 4) : RowMatch.Statement (.rsvdOp8_F op) := fun h => by
  refine ⟨_, rfl, ?_⟩
  revert op
  decide

end Sys2Proof.Laws
end

