-- ==== Sys2Proof/Laws/Sequencer.lean ====
section
/-! SUPPORT. What the sequencer's operations can do, each said once. -/

namespace Sys2Proof.Machine

/-- The three things TICK does to a channel (41_sequencer.md R121). -/
theorem Channel.tick_cases (r : Roms) (c : Channel) :
    (c.active = false ∧ c.tick r = c) ∨
    (c.active = true ∧ c.countFrame.sampleCount < c.samplesPerNote ∧ c.tick r = c.countFrame) ∨
    (c.active = true ∧ ¬c.countFrame.sampleCount < c.samplesPerNote ∧ c.tick r = c.countFrame.clearCount.advance r) := by
  by_cases hc : c.active = true
  · by_cases hs : c.countFrame.sampleCount < c.samplesPerNote
    · exact .inr (.inl ⟨hc, hs, by rw [Channel.tick, if_pos hc, if_pos hs]⟩)
    · exact .inr (.inr ⟨hc, hs, by rw [Channel.tick, if_pos hc, if_neg hs]⟩)
  · exact .inl ⟨by simpa using hc, by rw [Channel.tick, if_neg hc]⟩

theorem Channel.tick_idle {r : Roms} {c : Channel} (h : c.active = false) : c.tick r = c := by
  rw [Channel.tick, if_neg (by simp [h])]

theorem Channel.tick_same_note {r : Roms} {c : Channel} (h : c.active = true)
    (hs : c.countFrame.sampleCount < c.samplesPerNote) : c.tick r = c.countFrame := by
  rw [Channel.tick, if_pos h, if_pos hs]

theorem Channel.tick_time_out {r : Roms} {c : Channel} (h : c.active = true)
    (hs : ¬c.countFrame.sampleCount < c.samplesPerNote) : c.tick r = c.countFrame.clearCount.advance r := by
  rw [Channel.tick, if_pos h, if_neg hs]

/-- The count after one frame, as long as it fits its register. -/
theorem Channel.countFrame_toNat {c : Channel} (h : c.sampleCount.toNat + 367 < 65536) :
    c.countFrame.sampleCount.toNat = c.sampleCount.toNat + 367 := by
  have h367 : (BitVec.ofNat 16 Config.tickInc).toNat = 367 := by decide
  rw [Channel.countFrame_sampleCount, BitVec.toNat_add, h367]
  exact Nat.mod_eq_of_lt h

/-- Where the sequence goes next: a loop wrap, the end, or the next note (R121). -/
theorem nextNoteIndex_cases (looping : Bool) (ls le : Nat) (k : BitVec 5) :
    (looping = true ∧ le ≤ k.toNat + 1 ∧ nextNoteIndex looping ls le k = some (BitVec.ofNat 5 ls)) ∨
    (¬(looping = true ∧ le ≤ k.toNat + 1) ∧ k.toNat = 31 ∧ nextNoteIndex looping ls le k = none) ∨
    (¬(looping = true ∧ le ≤ k.toNat + 1) ∧ k.toNat < 31 ∧
      nextNoteIndex looping ls le k = some (BitVec.ofNat 5 (k.toNat + 1))) := by
  have hk : k.toNat < 32 := k.isLt
  by_cases hl : looping = true ∧ le ≤ k.toNat + 1
  · exact .inl ⟨hl.1, hl.2, by simp [nextNoteIndex, hl]⟩
  · by_cases h31 : k.toNat = 31
    · exact .inr (.inl ⟨hl, h31, by
        unfold nextNoteIndex
        rw [if_neg hl, if_pos (show Config.notesPerSfx ≤ k.toNat + 1 by rw [h31]; decide)]⟩)
    · have : k.toNat < 31 := by omega
      exact .inr (.inr ⟨hl, this, by
        have hn : ¬ Config.notesPerSfx ≤ k.toNat + 1 := by
          show ¬ 32 ≤ k.toNat + 1
          omega
        unfold nextNoteIndex
        rw [if_neg hl, if_neg hn]⟩)

/-- The end of a note's time: the voice stops or the next note is loaded (R121). -/
theorem Channel.advance_cases (r : Roms) (c : Channel) :
    (nextNoteIndex c.looping (headerLoopStart (Roms.header r c.sfx.toNat)) (headerLoopEnd (Roms.header r c.sfx.toNat))
        c.noteIndex = none ∧ c.advance r = c.stop) ∨
    ∃ t, nextNoteIndex c.looping (headerLoopStart (Roms.header r c.sfx.toNat))
        (headerLoopEnd (Roms.header r c.sfx.toNat)) c.noteIndex = some t ∧ c.advance r = c.loadNote r t := by
  simp only [Channel.advance]
  split
  · exact .inl ⟨by assumption, rfl⟩
  · exact .inr ⟨_, by assumption, rfl⟩

/-- What TICK never writes of a channel: the binding, the duration, the phase and `looping` (R121). -/
theorem Channel.tick_keeps (r : Roms) (c : Channel) :
    (c.tick r).bound = c.bound ∧ (c.tick r).sfx = c.sfx ∧ (c.tick r).samplesPerNote = c.samplesPerNote ∧
      (c.tick r).phase = c.phase ∧ (c.tick r).looping = c.looping := by
  rcases Channel.tick_cases r c with ⟨_, h⟩ | ⟨_, _, h⟩ | ⟨_, _, h⟩ <;> rw [h]
  · simp
  · simp
  · rcases Channel.advance_cases r c.countFrame.clearCount with ⟨_, h'⟩ | ⟨t, _, h'⟩ <;> rw [h'] <;> simp

/-- The class of a note by its fields (R111). -/
theorem noteClass_cases (n : Half) :
    (noteVolume n = 0#3 ∧ noteClass n = .rest) ∨
    (noteVolume n ≠ 0#3 ∧ notePitch n < 64 ∧ noteClass n = .sounding) ∨
    (noteVolume n ≠ 0#3 ∧ 64 ≤ notePitch n ∧ noteClass n = .dead) := by
  by_cases hv : noteVolume n = 0#3
  · exact .inl ⟨hv, by rw [noteClass, if_pos hv]⟩
  · by_cases hp : notePitch n < Config.pitchEntries
    · exact .inr (.inl ⟨hv, hp, by rw [noteClass, if_neg hv, if_pos hp]⟩)
    · exact .inr (.inr ⟨hv, Nat.le_of_not_lt hp, by rw [noteClass, if_neg hv, if_neg hp]⟩)

/-- TRIGGER acts on one channel, or is ignored (R115, R116). -/
theorem Block.trigger_cases (ch : BitVec 8) (sfx : BitVec 15) (r : Roms) (b : Block) :
    ((4 ≤ ch.toNat ∨ r.numSfx ≤ sfx.toNat) ∧ b.trigger ch sfx r = b) ∨
    ∃ i : Fin 4, ch.toNat = i.val ∧ sfx.toNat < r.numSfx ∧ b.trigger ch sfx r = b.updateChannel i (Channel.trigger r sfx) := by
  unfold Block.trigger
  cases hc : channelIndex ch with
  | none => exact .inl ⟨.inl (channelIndex_eq_none.mp hc), rfl⟩
  | some i =>
    by_cases hs : sfx.toNat < r.numSfx
    · exact .inr ⟨i, channelIndex_eq_some.mp hc, hs, by simp [hs]⟩
    · exact .inl ⟨.inr (by omega), by simp [hs]⟩

/-- STOP acts on one channel, or is ignored (R118). -/
theorem Block.stop_cases (ch : BitVec 8) (b : Block) :
    (4 ≤ ch.toNat ∧ b.stop ch = b) ∨ ∃ i : Fin 4, ch.toNat = i.val ∧ b.stop ch = b.updateChannel i Channel.stop := by
  unfold Block.stop
  cases hc : channelIndex ch with
  | none => exact .inl ⟨channelIndex_eq_none.mp hc, rfl⟩
  | some i => exact .inr ⟨i, channelIndex_eq_some.mp hc, rfl⟩

end Sys2Proof.Machine
end

