-- ==== Sys2Proof/Laws/Step.lean ====
section
/-! SUPPORT. What a command, the acceptance of an access, and a step can do, each said once. -/

namespace Sys2Proof.Machine

/-- Running on the block answers a next state that differs in the block alone. -/
theorem runOnBlock_eq (s : State) (f : Roms → Block → Block) :
    runOnBlock s f = .next (s.withBlock (f s.roms s.block)) := rfl

/-- What each command makes of the block. -/
def blockAfter (i : Instr) (r : Roms) (b : Block) : Block :=
  match i with
  | .nop => b
  | .stop ch => b.stop ch
  | .stopall _ => b.stopAll
  | .trigger ch sfx => b.trigger ch sfx r
  | .rsvdTrig _ _ => b
  | .tick => b.tick r
  | .sample => b.sample
  | .setvol level => b.setVolume level
  | .rsvdOp5 => b
  | .rsvdOp6_7 _ => b
  | .rsvdOp8_F _ => b

/-- Every command ends in a next state that differs in the block alone (60_exceptions.md R160). -/
theorem exec_eq (i : Instr) (s : State) : exec i s = .next (s.withBlock (blockAfter i s.roms s.block)) := by
  cases i <;> rfl

@[simp] theorem execAll_nil (s : State) : execAll [] s = .next s := rfl

@[simp] theorem execAll_cons (i : Instr) (l : List Instr) (s : State) :
    execAll (i :: l) s = execAll l (s.withBlock (blockAfter i s.roms s.block)) := by
  simp [execAll, exec_eq]

/-- The block after a list of commands, the ROMs the same throughout. -/
def blockAfterAll (r : Roms) : List Instr → Block → Block
  | [], b => b
  | i :: rest, b => blockAfterAll r rest (blockAfter i r b)

theorem execAll_eq (l : List Instr) (s : State) : execAll l s = .next (s.withBlock (blockAfterAll s.roms l s.block)) := by
  induction l generalizing s with
  | nil => rfl
  | cons i l ih => simp [ih, blockAfterAll]

/-- The command of an access is the word of an aligned 32-bit write of CMD (20_memory.md R59). -/
theorem command_eq_some {a : Access} {w : Word} : a.command = some w ↔ a = commandWrite w := by
  cases a with
  | read off wd => simp [Access.command, commandWrite]
  | write off wd d =>
    by_cases h : off.val = Config.cmdOffset ∧ wd = .w32
    · have ho : off = 0 := Fin.ext h.1
      rw [Access.command, if_pos h, ho, h.2]
      simp [commandWrite]
    · have hne : ¬(off = 0 ∧ wd = .w32) := by
        intro hc
        exact h ⟨by rw [hc.1]; rfl, hc.2⟩
      simp only [Access.command, if_neg h, commandWrite, Access.write.injEq]
      constructor
      · intro hc
        exact absurd hc (by simp)
      · intro hc
        exact absurd ⟨hc.1, hc.2.1⟩ hne

/-- What accepting an access can do: ignore it, answer a read, run a command once reset is released, or
refuse it before the first reset. -/
theorem State.accept_cases (s : State) (c : Context) (a : Access) :
    s.accept c a = .served s ∨
    (∃ v, s.accept c a = .served (s.setPort c { s.port c with readData := some v })) ∨
    (∃ w, a = commandWrite w ∧ s.power = .released ∧ s.accept c a = .command w s) ∨
    (s.power = .unreset ∧ s.accept c a = .refuse .beforeReset) := by
  unfold State.accept
  split
  · rename_i w hw
    cases hp : s.power
    · exact .inr (.inr (.inr ⟨rfl, rfl⟩))
    · exact .inl rfl
    · exact .inr (.inr (.inl ⟨w, command_eq_some.mp hw, rfl, rfl⟩))
  · exact .inl rfl
  · split
    · rename_i h
      exact .inr (.inr (.inr ⟨h.1, rfl⟩))
    · exact .inr (.inl ⟨_, rfl⟩)

/-- What a read returns: `out` at OUT's offset, 0 elsewhere in the window, at most an access width of a free value past
its end. -/
theorem State.readValue_cases (s : State) (off : Fin 8) (wd : Width) :
    (off = 4 ∧ s.readValue off wd = s.outValue.setWidth 32) ∨
    (off ≠ 4 ∧ off.val + wd.bytes ≤ 8 ∧ s.readValue off wd = 0#32) ∨
    (8 < off.val + wd.bytes ∧ s.readValue off wd = wd.truncate (Config.openRead s.turn)) := by
  have he : off.val = Config.outOffset ↔ off = 4 := (Fin.ext_iff (a := off) (b := 4)).symm
  unfold State.readValue
  by_cases h : off = 4
  · exact .inl ⟨h, if_pos (he.mpr h)⟩
  · rw [if_neg (fun hv => h (he.mp hv))]
    by_cases hw : off.val + wd.bytes ≤ Config.windowBytes
    · exact .inr (.inl ⟨h, hw, if_pos hw⟩)
    · exact .inr (.inr ⟨Nat.lt_of_not_le hw, if_neg hw⟩)

/-- An agent is served only if it has something pending, and every agent that has can be. -/
theorem mem_of_pickAgent {k : Nat} {l : List Agent} {a : Agent} (h : pickAgent k l = some a) : a ∈ l := by
  match l with
  | [] => simp [pickAgent] at h
  | [b] =>
    simp only [pickAgent, Option.some.injEq] at h
    simp [h]
  | b :: c :: rest =>
    simp only [pickAgent] at h
    exact List.mem_of_getElem? h

theorem mem_candidates_context {s : State} {c : Context} :
    Agent.context c ∈ s.candidates ↔ (s.port c).pending ≠ [] := by
  unfold State.candidates State.port
  cases c <;> simp [List.isEmpty_iff]

theorem mem_candidates_platform {s : State} : Agent.platform ∈ s.candidates ↔ s.platform ≠ [] := by
  unfold State.candidates
  simp [List.isEmpty_iff]

/-- The three ways a step can begin: nothing pending, an edge of the reset input, or an access of a context. -/
theorem step_by_agent (s : State) :
    (s.granted = none ∧ step s = .next s) ∨
    (∃ e rest, s.granted = some .platform ∧ s.platform = e :: rest ∧ step s = .next ((s.popEdge rest).resetEdge e)) ∨
    (∃ c a rest, s.granted = some (.context c) ∧ (s.port c).pending = a :: rest ∧
      s.fetch = (s.popPort c rest).accept c a) := by
  cases hg : s.granted with
  | none => exact .inl ⟨rfl, by simp [step, State.fetch, hg]⟩
  | some ag =>
    have hm := mem_of_pickAgent (k := Config.arbiter s.turn) hg
    cases ag with
    | platform =>
      cases hp : s.platform with
      | nil => exact absurd hp (mem_candidates_platform.mp hm)
      | cons e rest => exact .inr (.inl ⟨e, rest, rfl, rfl, by simp [step, State.fetch, hg, State.serve, hp]⟩)
    | context c =>
      cases hp : (s.port c).pending with
      | nil => exact absurd hp (mem_candidates_context.mp hm)
      | cons a rest => exact .inr (.inr ⟨c, a, rest, rfl, hp, by simp [State.fetch, hg, State.serve, hp]⟩)

/-- Everything a step can do when it answers a next state. -/
theorem step_cases {s t : State} (h : step s = .next t) :
    t = s ∨
    (∃ e rest, s.platform = e :: rest ∧ t = (s.popEdge rest).resetEdge e) ∨
    (∃ c rest, t = s.popPort c rest) ∨
    (∃ c rest v, t = (s.popPort c rest).setPort c { (s.popPort c rest).port c with readData := some v }) ∨
    (∃ c rest i, s.power = .released ∧
      t = (s.popPort c rest).withBlock (blockAfter i s.roms s.block)) := by
  rcases step_by_agent s with ⟨_, hs⟩ | ⟨e, rest, _, hp, hs⟩ | ⟨c, a, rest, _, _, hf⟩
  · rw [hs] at h
    exact .inl (Host.Outcome.next.inj h).symm
  · rw [hs] at h
    exact .inr (.inl ⟨e, rest, hp, (Host.Outcome.next.inj h).symm⟩)
  · rcases State.accept_cases (s.popPort c rest) c a with ha | ⟨v, ha⟩ | ⟨w, _, hp, ha⟩ | ⟨_, ha⟩ <;>
      simp only [step, hf, ha] at h
    · exact .inr (.inr (.inl ⟨c, rest, (Host.Outcome.next.inj h).symm⟩))
    · exact .inr (.inr (.inr (.inl ⟨c, rest, v, (Host.Outcome.next.inj h).symm⟩)))
    · rw [exec_eq] at h
      refine .inr (.inr (.inr (.inr ⟨c, rest, decode w, by simpa using hp, ?_⟩)))
      simpa using (Host.Outcome.next.inj h).symm
    · cases h

end Sys2Proof.Machine
end

