-- ==== Sys2Proof/Tests/Slice0.lean ====
section
/-! SUPPORT. Small tests whose expected results are the spec's own vectors (95_test_vectors.md) or words
written out from the encoding (30_encoding.md R70, R74), and a witness for each statement with hypotheses. -/

namespace Sys2Proof.Machine.Tests
open Sys2Proof Sys2Proof.Machine

/-! ## The well-formedness checks refuse ill-formed terms -/

theorem test_wf_rsvdTrig_low : (Instr.rsvdTrig 0 0x7FFF).wellFormed = false := by decide
theorem test_wf_rsvdTrig_sentinel : (Instr.rsvdTrig 0 0xFFFE).wellFormed = false := by decide
theorem test_wf_rsvdOp6_7_low : (Instr.rsvdOp6_7 5).wellFormed = false := by decide
theorem test_wf_rsvdOp6_7_high : (Instr.rsvdOp6_7 8).wellFormed = false := by decide
theorem test_wf_rsvdOp8_F_low : (Instr.rsvdOp8_F 7).wellFormed = false := by decide

/-! ## Decoding: words written out bit by bit, and the vectors of 95_test_vectors.md section 2.1 -/

theorem test_decode_nop : decode 0b00001111111111111111111111111111#32 = .nop := by decide
theorem test_decode_stop : decode 0b00010000000000101111111111111111#32 = .stop 2 := by decide
theorem test_decode_stopall : decode 0b00010000111111111111111111111110#32 = .stopall 255 := by decide
theorem test_decode_trigger : decode 0b00010000000000110000000000000100#32 = .trigger 3 4 := by decide
theorem test_decode_trigger_reserved_bits : decode 0x1F000000#32 = .trigger 0 0 := by decide
theorem test_decode_rsvdTrig : decode 0b00010000000000001111111111111101#32 = .rsvdTrig 0 0xFFFD := by decide
theorem test_decode_rsvdTrig_low : decode 0x10008000#32 = .rsvdTrig 0 0x8000 := by decide
theorem test_decode_tick : decode 0b00101010101111001101111011110000#32 = .tick := by decide
theorem test_decode_sample : decode 0b00111111111111111111111111111111#32 = .sample := by decide
theorem test_decode_setvol : decode 0b01001111111111111111111110000000#32 = .setvol 128 := by decide
theorem test_decode_rsvdOp5 : decode 0b01010000000000000000000000000000#32 = .rsvdOp5 := by decide
theorem test_decode_rsvdOp6_7 : decode 0b01110000000000001111111111111111#32 = .rsvdOp6_7 7 := by decide
theorem test_decode_rsvdOp8_F : decode 0b11111111111111111111111111111111#32 = .rsvdOp8_F 15 := by decide
theorem test_decode_little_endian : decodeBytes [0x04, 0x00, 0x03, 0x10, 0x55] = .ok (.trigger 3 4, [0x55]) := by rfl
theorem test_decode_truncated : decodeBytes [0x04, 0x00, 0x03] = .error .truncated := by rfl
theorem test_decodeTableWord : decodeTableWord 32 0x100003E7 = some (.trigger 0 999) := by decide

/-! ## The fixture: records 0 to 5 of 95_test_vectors.md section 0, and its record 9 as record 6 -/

/-- The image's bytes that are not 0, by 20_memory.md R53, R54, R56. -/
def fixtureImage : Memory :=
  [(0, 0x01), (4, 0x32), (5, 0x0D), (6, 0xA1), (7, 0x1D), (10, 0xC6), (11, 0x14),
   (68, 0x01), (72, 0xA1), (73, 0x1D), (136, 0x01), (140, 0x21), (141, 0x1D),
   (204, 0x01), (208, 0x21), (209, 0x1F), (272, 0x03), (273, 0x01), (274, 0x03), (276, 0x28), (277, 0x1C),
   (278, 0x2D), (279, 0x12), (280, 0xAF), (281, 0x0A), (344, 0xD0), (344 + 1, 0x1C), (346, 0x21), (347, 0x1D),
   (408, 0x02), (414, 0x21), (415, 0x1D)]

def fixture : Roms := { pitch := Config.defaultPitch, numSfx := 7, sfx := fixtureImage }

theorem test_fixture_legal : Roms.wf fixture = true := by decide

/-- The same records laid out by the image builder (R56). -/
theorem test_image_builder :
    (Roms.ofRecords Config.defaultPitch [⟨0x00000001#32, [0x0D32#16, 0x1DA1#16, 0#16, 0x14C6#16]⟩]).sfx =
      fixtureImage.take 7 := by decide

/-- The reset state with the fixture's ROMs (section 0). -/
def start : State := State.resetWith fixture

/-- The state a result holds, the given one if it is no next state. -/
def stateOf (d : State) : Result → State
  | .next s => s
  | .fault _ => d
  | .refused _ => d

/-- The state after one step that accepts the given word. -/
def stepWord (w : Nat) (s : State) : State := stateOf s (step (s.withFetchWord 32 w))

/-- A channel playing its current note, the fields a TRIGGER leaves. -/
def playing (sfx : BitVec 15) (spn inc : BitVec 16) (vol wave : BitVec 3) (loops : Bool) : Channel :=
  { bound := true, sfx := sfx, noteIndex := 0, sampleCount := 0, samplesPerNote := spn, phase := 0,
    phaseIncrement := inc, volume := vol, waveform := wave, active := true, looping := loops }

/-- The fixture's reset state with channel 0 replaced. -/
def withChannel (c : Channel) : State := start.withBlock (Block.reset.updateChannel 0 (fun _ => c))

/-! ## One step of each command (vectors of 95_test_vectors.md section 2) -/

/-- V-TRIG-1. -/
theorem test_trigger : (stepWord 0x10000000 start).block.channel 0 = playing 0 183 3492 3 2 false := by decide
/-- V-TRIG-4: a Dead first note leaves the voice Idle and the increment as it was. -/
theorem test_trigger_dead : (stepWord 0x10010005 start).block.channel 1 =
    { playing 5 183 0 7 1 false with active := false } := by decide
/-- V-TRIG-7. -/
theorem test_rsvdTrig : (stepWord 0x1000FFFD start).block = start.block := by decide
/-- V-STOP-1. -/
theorem test_stop : (stepWord 0x1000FFFF (withChannel (playing 0 183 3492 3 2 false))).block.channel 0 =
    { playing 0 183 3492 3 2 false with active := false } := by decide
/-- V-STOP-3. -/
theorem test_stop_range : (stepWord 0x1004FFFF (withChannel (playing 0 183 3492 3 2 false))).block.channel 0 =
    playing 0 183 3492 3 2 false := by decide
/-- V-STOPALL-1: CH = 7 has no effect. -/
theorem test_stopall : ((stepWord 0x1007FFFE (withChannel (playing 3 183 1307 7 6 false))).block.channel 0).active = false := by
  decide
/-- V-TICK-3: the loop wraps from note 2 to `loopStart` 1. -/
theorem test_tick_wrap : (stepWord 0x20000000 (withChannel
      { playing 4 549 2936 2 5 true with noteIndex := 2, sampleCount := 367 })).block.channel 0 =
    { playing 4 549 2615 4 4 true with noteIndex := 1 } := by decide
/-- V-TICK-5: a Dead note stops the voice. -/
theorem test_tick_dead : (stepWord 0x20000000 (withChannel
      { playing 0 183 0 0 0 false with noteIndex := 2, phase := 0x3322 })).block.channel 0 =
    { playing 0 183 0 5 1 false with noteIndex := 3, phase := 0x3322, active := false } := by decide
/-- V-MIX-1. -/
theorem test_sample : (stepWord 0x30000000 (withChannel (playing 0 183 3492 3 2 false))).block.out = 74 := by decide
/-- V-MIX-8: two noise channels take two successive LFSR outputs. -/
theorem test_sample_noise :
    (stepWord 0x30000000 (start.withBlock ((Block.reset.updateChannel 0 (fun _ => playing 3 183 1307 7 6 false)).updateChannel
      1 (fun _ => playing 3 183 1307 7 6 false)))).block.out = 84 := by decide
/-- 2.1: SETVOL 128 with its reserved bits set. -/
theorem test_setvol : (stepWord 0x4FFFFF80 start).block.masterVolume = 128 := by decide
/-- V-NOP-1. -/
theorem test_nop : (stepWord 0x0123ABCD (withChannel (playing 0 183 3492 3 2 false))).block =
    (withChannel (playing 0 183 3492 3 2 false)).block := by decide
/-- V-RSV-1. -/
theorem test_rsvdOp5 : (stepWord 0x50000000 start).block = start.block := by decide
theorem test_rsvdOp6_7 : (stepWord 0x6FFFFFFF start).block = start.block := by decide
theorem test_rsvdOp8_F : (stepWord 0xF0000000 start).block = start.block := by decide

/-! ## The assembler and the API mapping -/

theorem test_assemble_line : assembleLine [' ', 'T', 'R', 'I', 'G', 'G', 'E', 'R', ' ', '0', 'x', '4', ',', ' ', '3', ';', 'c'] =
    .ok (some 0x10030004#32) := by rfl
theorem test_assemble_range : assembleLine ['S', 'T', 'O', 'P', ' ', '2', '5', '6'] = .error .operandRange := by rfl
theorem test_assemble_minus_one : assembleLine ['T', 'R', 'I', 'G', 'G', 'E', 'R', ' ', '-', '1', ',', '2'] =
    .ok (some 0x1002FFFF#32) := by rfl
theorem test_api_next_sample : ApiCall.nextSample.accesses = [commandWrite 0x30000000#32, .read 4 .w8] := by decide

/-! ## States that meet the hypotheses of the statements -/

/-- An Idle channel meets the invariant whatever the ROMs. -/
theorem reset_channel_inv : Channel.Inv fixture Channel.reset :=
  ⟨by decide, by decide, by decide, by decide, by decide, by decide, by decide, by decide, by decide⟩

/-- The fixture's block with channel 0 replaced meets the invariant when that channel does. -/
theorem withChannel_inv {c : Channel} (h : Channel.Inv fixture c) : Block.Inv (withChannel c).roms (withChannel c).block :=
  ⟨fun i => match i with
    | 0 => h
    | 1 => reset_channel_inv
    | 2 => reset_channel_inv
    | 3 => reset_channel_inv, show Config.lfsrSeed ≠ 0#16 by decide⟩

/-- A state whose one pending item is an access of the frame context. -/
def pendingAccess (p : Power) (a : Access) : State :=
  { start with power := p, frame := { pending := [a], readData := none } }

/-- Record 4 (loop 1 to 3, 549 samples a note): at note `k` with a count, its note-2 fields. -/
def loopChannel (count : BitVec 16) : Channel := { playing 4 549 2936 2 5 true with noteIndex := 2, sampleCount := count }

/-- Record 1 (not looping, notes 1 to 31 are Rests): at note `k`. -/
def restChannel (k : BitVec 5) : Channel := { playing 1 183 0 0 0 false with noteIndex := k }

theorem loopChannel_start_inv : Channel.Inv fixture (loopChannel 0) :=
  ⟨by decide, by decide, by decide, by decide, by decide, by decide, by decide, by decide, by decide⟩
theorem loopChannel_181_inv : Channel.Inv fixture (loopChannel 181) :=
  ⟨by decide, by decide, by decide, by decide, by decide, by decide, by decide, by decide, by decide⟩
theorem loopChannel_182_inv : Channel.Inv fixture (loopChannel 182) :=
  ⟨by decide, by decide, by decide, by decide, by decide, by decide, by decide, by decide, by decide⟩
theorem restChannel_31_inv : Channel.Inv fixture (restChannel 31) :=
  ⟨by decide, by decide, by decide, by decide, by decide, by decide, by decide, by decide, by decide⟩
theorem restChannel_30_inv : Channel.Inv fixture (restChannel 30) :=
  ⟨by decide, by decide, by decide, by decide, by decide, by decide, by decide, by decide, by decide⟩
/-- Record 1 at its note 0, as its TRIGGER leaves it. -/
theorem firstNote_inv : Channel.Inv fixture (playing 1 183 1307 7 3 false) :=
  ⟨by decide, by decide, by decide, by decide, by decide, by decide, by decide, by decide, by decide⟩

/-- DecodeOfEncodeIsTheCommand: well-formed commands at the ends of their operands' ranges. -/
theorem witness_wellFormed : (Instr.trigger 255 0x7FFF).wellFormed = true ∧ (Instr.rsvdTrig 0 0x8000).wellFormed = true ∧
    (Instr.rsvdTrig 255 0xFFFD).wellFormed = true ∧ (Instr.rsvdOp6_7 6).wellFormed = true ∧
    (Instr.rsvdOp6_7 7).wellFormed = true ∧ (Instr.rsvdOp8_F 8).wellFormed = true ∧
    (Instr.rsvdOp8_F 15).wellFormed = true := by decide

/-- ReservedWordBitsHaveNoEffect: a word of each format. -/
theorem witness_formats : fieldOp 0x1F000000#32 = 1#4 ∧ fieldOp 0x4FFFFF80#32 = 4#4 ∧
    fieldOp 0x2ABCDEF0#32 ≠ 1#4 ∧ fieldOp 0x2ABCDEF0#32 ≠ 4#4 := by decide

/-- AssembledOperandsAreTheCommandsOperands: operands at both ends of each range, and just outside. -/
theorem witness_assembler : ((0 : Int) ≤ 0 ∧ (32767 : Int) ≤ 32767 ∧ (255 : Int) ≤ 255) ∧
    ((-1 : Int) < 0 ∧ (255 : Int) < 256 ∧ (-3 : Int) < -2 ∧ (32767 : Int) < 32768) := by decide

/-- ApiTriggerActsOnlyInRange: indices in range and each kind out of it. -/
theorem witness_api : start.roms.numSfx ≤ 32768 ∧ (6 : Int) ≠ -1 ∧ (6 : Int) ≠ -2 ∧
    (0 ≤ (6 : Int) ∧ (6 : Int) < start.roms.numSfx ∧ 0 ≤ (3 : Int) ∧ (3 : Int) < 4) ∧
    ¬(0 ≤ (7 : Int) ∧ (7 : Int) < start.roms.numSfx ∧ 0 ≤ (3 : Int) ∧ (3 : Int) < 4) ∧
    ¬(0 ≤ (6 : Int) ∧ (6 : Int) < start.roms.numSfx ∧ 0 ≤ (4 : Int) ∧ (4 : Int) < 4) ∧
    ¬(0 ≤ (-3 : Int) ∧ (-3 : Int) < start.roms.numSfx ∧ 0 ≤ (3 : Int) ∧ (3 : Int) < 4) := by decide

/-- DefaultPitchRomGivesTheListedIncrements and PhaseIncrementIsExact: the fixture's legal ROMs, first and last pitch. -/
theorem witness_pitch : fixture.pitch = Config.defaultPitch ∧ Roms.wf fixture = true ∧ 0 < 64 ∧ 63 < 64 := by decide

/-- SamplesPerNoteIsFlooredAt183: speeds 0 and 1. -/
theorem witness_speed : headerSpeed 0x00030100#32 ≤ 1 ∧ headerSpeed 0x00030101#32 ≤ 1 := by decide

/-- RomImageHoldsItsRecords: a record of a list, the last byte of its header and its first and last note. -/
theorem witness_record : ([⟨0x00000001#32, [0x0D32#16]⟩] : List SfxRecord)[0]? = some ⟨0x00000001#32, [0x0D32#16]⟩ ∧
    3 < 4 ∧ 0 < 32 ∧ 31 < 32 := by decide

/-- A one-record ROM and one that differs from it in header bits [31:24] and in note 0's `effect` field. -/
def plainRoms : Roms := { pitch := Config.defaultPitch, numSfx := 1, sfx := [(0, 0x01), (4, 0x32), (5, 0x0D)] }
def decoratedRoms : Roms := { pitch := Config.defaultPitch, numSfx := 1, sfx := [(0, 0x01), (3, 0xFF), (4, 0x32), (5, 0xED)] }

/-- ReservedRomBitsAreNotObservable: two different ROMs that agree, and a block that meets the invariant. -/
theorem witness_roms_agree : plainRoms ≠ decoratedRoms ∧ Roms.agree (State.resetWith plainRoms).roms decoratedRoms ∧
    Block.Inv (State.resetWith plainRoms).roms (Block.reset.updateChannel 0 (fun _ => playing 0 183 3492 3 2 false)) := by
  refine ⟨by decide, ⟨rfl, rfl, by decide⟩, ⟨fun i => ?_, by decide⟩⟩
  match i with
  | 0 => exact ⟨by decide, by decide, by decide, by decide, by decide, by decide, by decide, by decide, by decide⟩
  | 1 => exact ⟨by decide, by decide, by decide, by decide, by decide, by decide, by decide, by decide, by decide⟩
  | 2 => exact ⟨by decide, by decide, by decide, by decide, by decide, by decide, by decide, by decide, by decide⟩
  | 3 => exact ⟨by decide, by decide, by decide, by decide, by decide, by decide, by decide, by decide, by decide⟩

/-- IgnoredCommandsChangeNothing: words at the ends of each clause's range. -/
theorem witness_ignored : (0x0FFFFFFF#32).extractLsb' 28 4 = 0#4 ∧ 5 ≤ ((0x50000000#32).extractLsb' 28 4).toNat ∧
    5 ≤ ((0xF0000000#32).extractLsb' 28 4).toNat ∧ (0x10008000#32).extractLsb' 28 4 = 1#4 ∧
    0x8000 ≤ ((0x10008000#32).extractLsb' 0 16).toNat ∧ (0x1000FFFD#32).extractLsb' 28 4 = 1#4 ∧
    ((0x1000FFFD#32).extractLsb' 0 16).toNat ≤ 0xFFFD := by decide

/-- TriggerBindsTheRecordAndLoadsNoteZero: record 6 is the last, record 7 and channel 4 are out of range. Note 0 of record
0 is Sounding, of record 5 Dead, of record 6 a Rest. -/
theorem witness_trigger : start.roms.numSfx ≤ (7#15).toNat ∧ 4 ≤ (4#8).toNat ∧ (3#8).toNat = (3 : Fin 4).val ∧
    (6#15).toNat < start.roms.numSfx ∧ (0x10037FFF#32).extractLsb' 28 4 = 1#4 ∧ (0x10037FFF#32).getLsbD 15 = false ∧
    ((Roms.note start.roms 0 0).extractLsb' 0 7).toNat < 64 ∧ 0 < ((Roms.note start.roms 0 0).extractLsb' 10 3).toNat ∧
    64 ≤ ((Roms.note start.roms 5 0).extractLsb' 0 7).toNat ∧
    ((Roms.note start.roms 6 0).extractLsb' 10 3).toNat = 0 := by decide

/-- StopClearsOnlyActive and StopAllClearsEveryActive: indices in and out of range, STOP and STOPALL words, Idle channels. -/
theorem witness_stop : 4 ≤ (4#8).toNat ∧ (3#8).toNat = (3 : Fin 4).val ∧ (start.block.channel 3).active = false ∧
    (∀ i : Fin 4, (start.block.channel i).active = false) ∧
    (0x10FFFFFF#32).extractLsb' 28 4 = 1#4 ∧ (0x10FFFFFF#32).extractLsb' 0 16 = 0xFFFF#16 ∧
    (0x10FFFFFE#32).extractLsb' 28 4 = 1#4 ∧ (0x10FFFFFE#32).extractLsb' 0 16 = 0xFFFE#16 := by decide

/-- TickStepsEachActiveChannelAlone: an Idle channel, and a second state with the same channel under other registers. -/
theorem witness_tick_alone : (start.block.channel 1).active = false ∧
    (withChannel (loopChannel 0)).roms = (start.withBlock ((withChannel (loopChannel 0)).block.setVolume 7)).roms ∧
    (withChannel (loopChannel 0)).block.channel 0 =
      (start.withBlock ((withChannel (loopChannel 0)).block.setVolume 7)).block.channel 0 ∧
    ∃ t', exec .tick (withChannel (loopChannel 0)) = .next t' := ⟨by decide, by decide, by decide, _, rfl⟩

/-- TickFollowsTheSequence, time left: 181 + 367 = 548 of 549 samples. -/
theorem witness_tick_same_note : Block.Inv (withChannel (loopChannel 181)).roms (withChannel (loopChannel 181)).block ∧
    ((withChannel (loopChannel 181)).block.channel 0).active = true ∧ (loopChannel 181).sampleCount.toNat + 367 < 549 :=
  ⟨withChannel_inv loopChannel_181_inv, by decide, by decide⟩

/-- TickFollowsTheSequence, loop wrap: 182 + 367 = 549 samples, note 2 with `loopEnd` 3. -/
theorem witness_tick_wrap : Block.Inv (withChannel (loopChannel 182)).roms (withChannel (loopChannel 182)).block ∧
    ((withChannel (loopChannel 182)).block.channel 0).active = true ∧ 549 ≤ (loopChannel 182).sampleCount.toNat + 367 ∧
    (loopChannel 182).looping = true ∧
    ((Roms.header fixture (loopChannel 182).sfx.toNat).extractLsb' 16 8).toNat ≤ (loopChannel 182).noteIndex.toNat + 1 :=
  ⟨withChannel_inv loopChannel_182_inv, by decide, by decide, by decide, by decide⟩

/-- TickFollowsTheSequence, the end of the sequence after note 31. -/
theorem witness_tick_end : Block.Inv (withChannel (restChannel 31)).roms (withChannel (restChannel 31)).block ∧
    ((withChannel (restChannel 31)).block.channel 0).active = true ∧ (restChannel 31).samplesPerNote.toNat ≤ 0 + 367 ∧
    (restChannel 31).looping = false ∧ (restChannel 31).noteIndex.toNat = 31 :=
  ⟨withChannel_inv restChannel_31_inv, by decide, by decide, by decide, by decide⟩

/-- TickFollowsTheSequence, the next note: from note 30. -/
theorem witness_tick_next : Block.Inv (withChannel (restChannel 30)).roms (withChannel (restChannel 30)).block ∧
    ((withChannel (restChannel 30)).block.channel 0).active = true ∧ (restChannel 30).samplesPerNote.toNat ≤ 0 + 367 ∧
    (restChannel 30).looping = false ∧ (restChannel 30).noteIndex.toNat < 31 :=
  ⟨withChannel_inv restChannel_30_inv, by decide, by decide, by decide, by decide⟩

/-- TickFollowsTheSequence and NoteLastsItsTicks: TICK's word, and a fresh note of two TICKs. -/
theorem witness_ticks : (0x2ABCDEF0#32).extractLsb' 28 4 = 2#4 ∧
    Block.Inv (withChannel (loopChannel 0)).roms (withChannel (loopChannel 0)).block ∧
    ((withChannel (loopChannel 0)).block.channel 0).active = true ∧
    ((withChannel (loopChannel 0)).block.channel 0).sampleCount = 0#16 ∧
    1 < ((withChannel (loopChannel 0)).block.channel 0).ticksPerNote :=
  ⟨by decide, withChannel_inv loopChannel_start_inv, by decide, by decide, by decide⟩

/-- LoopingVoiceStaysInItsLoop: record 4 at note 2, no Dead note before its `loopEnd` 3. -/
theorem witness_loop : Block.Inv (withChannel (loopChannel 0)).roms (withChannel (loopChannel 0)).block ∧
    (loopChannel 0).active = true ∧ (loopChannel 0).looping = true ∧
    headerLoopEnd (Roms.header fixture (loopChannel 0).sfx.toNat) ≤ 32 ∧
    (loopChannel 0).noteIndex.toNat < headerLoopEnd (Roms.header fixture (loopChannel 0).sfx.toNat) ∧
    (∀ k, k < headerLoopEnd (Roms.header fixture (loopChannel 0).sfx.toNat) →
      noteClass (Roms.note fixture (loopChannel 0).sfx.toNat k) ≠ .dead) ∧
    headerLoopStart (Roms.header fixture (loopChannel 0).sfx.toNat) ≤ (loopChannel 0).noteIndex.toNat :=
  ⟨withChannel_inv loopChannel_start_inv, by decide, by decide, by decide, by decide, by decide, by decide⟩

/-- NonLoopingVoicePlaysEveryNoteOnce: record 1 at its note 0, notes 1 to 31 are Rests. -/
theorem witness_nonlooping : Block.Inv (withChannel (playing 1 183 1307 7 3 false)).roms
      (withChannel (playing 1 183 1307 7 3 false)).block ∧
    ((withChannel (playing 1 183 1307 7 3 false)).block.channel 0).active = true ∧
    (playing 1 183 1307 7 3 false).noteIndex = 0#5 ∧ (playing 1 183 1307 7 3 false).sampleCount = 0#16 ∧
    (playing 1 183 1307 7 3 false).looping = false ∧
    (∀ k, k < 32 → noteClass (Roms.note fixture (playing 1 183 1307 7 3 false).sfx.toNat k) ≠ .dead) ∧
    31 ≤ 31 ∧ 0 < (playing 1 183 1307 7 3 false).ticksPerNote :=
  ⟨withChannel_inv firstNote_inv, by decide, by decide, by decide, by decide, by decide, by decide, by decide⟩

/-- A one-record ROM whose record loops from 0 to 33: note 0 Sounding, notes 1 to 31 Rests. -/
def longLoopRoms : Roms := { pitch := Config.defaultPitch, numSfx := 1, sfx := [(0, 0x01), (2, 0x21), (4, 0x32), (5, 0x0D)] }

/-- Channel 0 at note 0 of that record, as its TRIGGER leaves it. -/
def longLoop : State := (State.resetWith longLoopRoms).withBlock (Block.reset.updateChannel 0 (fun _ => playing 0 183 3492 3 2 true))

/-- NonLoopingVoicePlaysEveryNoteOnce: a looping record with `loopEnd` 33. -/
theorem witness_long_loop : Block.Inv longLoop.roms longLoop.block ∧ (longLoop.block.channel 0).active = true ∧
    (longLoop.block.channel 0).noteIndex = 0#5 ∧ (longLoop.block.channel 0).sampleCount = 0#16 ∧
    (longLoop.block.channel 0).looping = true ∧
    33 ≤ headerLoopEnd (Roms.header longLoop.roms (longLoop.block.channel 0).sfx.toNat) ∧
    ∀ k, k < 32 → noteClass (Roms.note longLoop.roms (longLoop.block.channel 0).sfx.toNat k) ≠ .dead := by
  refine ⟨⟨fun i => ?_, by decide⟩, by decide, by decide, by decide, by decide, by decide, by decide⟩
  match i with
  | 0 => exact ⟨by decide, by decide, by decide, by decide, by decide, by decide, by decide, by decide, by decide⟩
  | 1 => exact ⟨by decide, by decide, by decide, by decide, by decide, by decide, by decide, by decide, by decide⟩
  | 2 => exact ⟨by decide, by decide, by decide, by decide, by decide, by decide, by decide, by decide, by decide⟩
  | 3 => exact ⟨by decide, by decide, by decide, by decide, by decide, by decide, by decide, by decide, by decide⟩

/-- SampleMixesTheContributors, MixStaysInRange, SilentSampleReturns128, SetVolumeShowsInTheNextSample: SAMPLE's and
SETVOL's words, master volumes 0 and 1, a silent state with an active Rest channel. -/
theorem witness_sample : (0x3FFFFFFF#32).extractLsb' 28 4 = 3#4 ∧ (0x4FFFFF80#32).extractLsb' 28 4 = 4#4 ∧
    (Block.reset.setVolume 0).masterVolume.toNat ≤ 1 ∧ (Block.reset.setVolume 1).masterVolume.toNat ≤ 1 ∧
    ∀ i : Fin 4, ((withChannel (restChannel 30)).block.channel i).active = false ∨
      ((withChannel (restChannel 30)).block.channel i).volume = 0#3 := by decide

/-- TriggerThenSamplesFollowNoteZero: record 0 on channel 3. -/
theorem witness_trajectory : (3#8).toNat = (3 : Fin 4).val ∧ (0#15).toNat < start.roms.numSfx ∧
    noteClass (Roms.note start.roms (0#15).toNat 0) = .sounding := by decide

/-- LabelsNameWhatHappened: each label, at the first value out of range where there is a range. -/
theorem witness_labels : commandLabel (.trigger 0 7) start = some .ignSfxRange ∧
    commandLabel (.trigger 4 6) start = some .ignChRange ∧ commandLabel (.stop 4) start = some .ignChRange ∧
    commandLabel (.rsvdTrig 0 0xFFFD) start = some .ignSfxReserved ∧ commandLabel .rsvdOp5 start = some .ignOpcode ∧
    commandLabel (.trigger 1 5) start = some .deadFirstNote ∧
    commandLabel .tick (withChannel { playing 0 183 0 0 0 false with noteIndex := 2 }) = some .deadNote ∧
    start.roms.numSfx ≤ (7#15).toNat ∧ 4 ≤ (4#8).toNat ∧
    busLabel (.write 0 .w16 0#32) = some .ignBus ∧ busLabel (.write 3 .w32 0#32) = some .ignBus := by decide

/-- TriangleIsItsBitFormAndSymmetric: two phases of one step. GeneratorsFollowTheirLaws: the ends of the organ's ranges. WaveformRomHoldsTheGenerators: an id that is not 6.
NoisePeriodIs65535: a non-zero value. -/
theorem witness_generators : (0x3FFF#16).toNat ≤ 0x3FFF ∧ 0x4000 ≤ (0x4000#16).toNat ∧ (0xBFFF#16).toNat ≤ 0xBFFF ∧
    0xC000 ≤ (0xC000#16).toNat ∧ 7#3 ≠ 6#3 ∧ 5#3 ≠ 6#3 ∧ 0x8000#16 ≠ 0#16 ∧
    (128#16).toNat / 128 = (255#16).toNat / 128 := by decide

/-- OnlyNoiseSamplesStepTheLfsr: a command that answers a next state. -/
theorem witness_exec_next : ∃ t, exec .sample (withChannel (playing 3 183 1307 7 6 false)) = .next t := ⟨_, rfl⟩

/-- StepRunsTheDecodedCommand and ReadsReturnOutAndChangeNothing: one command write or one read pending, reset released. -/
theorem witness_command_pending : (pendingAccess .released (commandWrite 0x30000000#32)).power = .released ∧
    (pendingAccess .released (commandWrite 0x30000000#32)).granted = some (.context .frame) ∧
    ((pendingAccess .released (commandWrite 0x30000000#32)).port .frame).pending = [commandWrite (encode .sample)] ∧
    Instr.sample.wellFormed = true ∧ (pendingAccess .released (.read 4 .w8)).granted = some (.context .frame) := by decide

/-- ReadsReturnOutAndChangeNothing: within CMD, from CMD into OUT, OUT's upper bytes, up to the window's end. -/
theorem witness_reads : (0 : Fin 8) ≠ 4 ∧ (0 : Fin 8).val + Width.w32.bytes ≤ 8 ∧ (3 : Fin 8) ≠ 4 ∧
    (3 : Fin 8).val + Width.w32.bytes ≤ 8 ∧ (6 : Fin 8) ≠ 4 ∧ (6 : Fin 8).val + Width.w16.bytes ≤ 8 ∧
    (7 : Fin 8) ≠ 4 ∧ (7 : Fin 8).val + Width.w8.bytes ≤ 8 := by decide

/-- 92_eei_decisions.md D29: a read from CMD into OUT reads 0, though `out` is 128. -/
theorem test_straddling_read : start.block.out = 128#8 ∧ start.readValue 3 .w16 = 0#32 ∧ start.readValue 1 .w32 = 0#32 ∧
    start.readValue 4 .w32 = 128#32 := by decide

/-- EveryInterleavingIsAdmitted and NoAccessIsDropped: a command, a read, a refused command, an edge and nothing pending. -/
theorem witness_served :
    ((pendingAccess .released (commandWrite 0x30000000#32)).popPort .frame []).accept .frame (commandWrite 0x30000000#32) =
      .command 0x30000000#32 ((pendingAccess .released (commandWrite 0x30000000#32)).popPort .frame []) ∧
    (∃ u, ((pendingAccess .released (.read 4 .w8)).popPort .frame []).accept .frame (.read 4 .w8) = .served u) ∧
    ((pendingAccess .unreset (commandWrite 0x30000000#32)).popPort .frame []).accept .frame (commandWrite 0x30000000#32) =
      .refuse .beforeReset ∧
    start.granted = none ∧ (pendingAccess .released (.read 4 .w8)).pendingCount ≠ 0 ∧
    (∀ w, Access.read 4 .w8 ≠ commandWrite w) := by
  refine ⟨by decide, ⟨_, rfl⟩, by decide, by decide, by decide, fun w => by simp [commandWrite]⟩

/-- ResetSetsEveryField: an assert edge pending, and nothing else. -/
theorem witness_reset_edge : ({ withChannel (loopChannel 0) with platform := [.assert] } : State).granted = some .platform ∧
    ({ withChannel (loopChannel 0) with platform := [.assert] } : State).platform = [.assert] := by decide

/-- InvariantHoldsAtReset, EveryStepKeepsTheInvariant, InvariantGivesTheListedBounds, NoStepChangesTheRoms: a state with a
Playing channel meets the invariant, and its step answers a next state. -/
theorem witness_invariant : Roms.wf fixture = true ∧ State.Inv (withChannel (loopChannel 182)) ∧
    ∃ t, step ((withChannel (loopChannel 182)).withFetchWord 32 0x20000000) = .next t ∧
      State.Inv ((withChannel (loopChannel 182)).withFetchWord 32 0x20000000) :=
  have h : ∀ s : State, s.roms = fixture → s.power = .released → s.block = (withChannel (loopChannel 182)).block → State.Inv s :=
    fun s hr hp hb => ⟨by rw [hr]; decide, fun _ => by rw [hr, hb]; exact withChannel_inv loopChannel_182_inv,
      fun ha => absurd ha (by rw [hp]; decide)⟩
  ⟨by decide, h _ rfl rfl rfl, _, rfl, h _ rfl rfl rfl⟩

/-- EveryStepCompletesAfterReset and NoAccessIsDropped: a block that has been reset, with something pending. -/
theorem witness_once_reset : (pendingAccess .released (commandWrite 0x30000000#32)).power ≠ .unreset ∧
    (pendingAccess .asserted (commandWrite 0x30000000#32)).power ≠ .unreset ∧
    (pendingAccess .released (commandWrite 0x30000000#32)).pendingCount = 1 := by decide

/-- CommandsAndOutReadsAreRefusedBeforeTheFirstReset: a command write, and the narrowest reads that touch OUT. -/
theorem witness_before_reset : (pendingAccess .unreset (commandWrite 0x30000000#32)).power = .unreset ∧
    (pendingAccess .unreset (commandWrite 0x30000000#32)).granted = some (.context .frame) ∧
    (pendingAccess .unreset (.read 4 .w8)).granted = some (.context .frame) ∧
    ((pendingAccess .unreset (.read 4 .w8)).port .frame).pending = [.read 4 .w8] ∧
    4 < (4 : Fin 8).val + Width.w8.bytes ∧ 4 < (3 : Fin 8).val + Width.w16.bytes := by decide

/-- ResetHoldsOffCommands: reset asserted, a command write or a read of OUT pending. -/
theorem witness_in_reset : (pendingAccess .asserted (commandWrite 0x30000000#32)).power = .asserted ∧
    (pendingAccess .asserted (commandWrite 0x30000000#32)).granted = some (.context .frame) ∧
    ((pendingAccess .asserted (commandWrite 0x30000000#32)).port .frame).pending = [commandWrite 0x30000000#32] ∧
    ((pendingAccess .asserted (.read 4 .w32)).port .frame).pending = [.read 4 .w32] := by decide

/-- OtherWritesAreIgnored: a narrow write of CMD, a misaligned one, and a write of OUT. -/
theorem witness_other_writes : (pendingAccess .released (.write 0 .w8 0x30000000#32)).granted = some (.context .frame) ∧
    Width.w8 ≠ .w32 ∧ (3 : Fin 8) ≠ 0 ∧ (4 : Fin 8) ≠ 0 := by decide

/-- OnlyWindowAccessesReachTheBlock: the address just past the window, its first and last byte. The clauses on addresses
below the window have a premise only where the open base is above 0. -/
theorem witness_window : Config.hsaBase + 8 ≤ Config.hsaBase + 8 ∧ Config.hsaBase + 0 = Config.hsaBase + (0 : Fin 8).val ∧
    Config.hsaBase + 7 = Config.hsaBase + (7 : Fin 8).val ∧
    (0 < Config.hsaBase → ∃ addr, addr + Width.w8.bytes ≤ Config.hsaBase ∧ addr < Config.hsaBase ∧
      Config.hsaBase < addr + Width.w16.bytes) :=
  ⟨Nat.le_refl _, rfl, rfl, fun h => ⟨Config.hsaBase - 1, by simp only [Width.bytes]; omega, by omega,
    by simp only [Width.bytes]; omega⟩⟩

end Sys2Proof.Machine.Tests
end

section
/-!
The constants of R6 and R7 (spec 00_scope.md).
-/
namespace Sys2Proof.Machine

/-- R7's quotient 367.5 before truncation: the remainder is half the frame rate. -/
theorem sampleRate_eq_frameRate_mul_add : Config.sampleRate = Config.frameRate * 367 + 30 := rfl

/-- R7: the division drops the remainder 30, which is below the frame rate. -/
theorem tickInc_eq : Config.tickInc = 367 :=
  Nat.div_eq_of_lt_le (by rw [sampleRate_eq_frameRate_mul_add]; decide)
    (by rw [sampleRate_eq_frameRate_mul_add]; decide)

/-- Settles O8: R6's values are the definitions, and `tickInc_eq` gives the truncated quotient of R7. -/
theorem constantsAreTheSources : Obligations.ConstantsAreTheSources := by
  unfold Obligations.ConstantsAreTheSources
  have phase : Config.phaseModulus = 2 ^ 16 := by decide
  have quotient : Config.tickInc = 22050 / 60 := rfl
  exact ⟨rfl, phase, rfl, rfl, rfl, rfl, rfl, rfl, rfl, rfl, quotient, tickInc_eq⟩

end Sys2Proof.Machine
end

section
/-!
The machine's invariant (spec 10_state.md R40, R41, R43): it holds at reset and every step keeps it. One rule
per operation on a channel, then on the block, then on the state.
-/
namespace Sys2Proof.Machine

section Rules
variable {r : Roms} {b : Block} {c : Channel} {s t : State}

/-! ### Note durations and the two `active` flags -/

theorem noteFloor_le_samplesPerNoteOf (speed : Nat) : 183 ≤ samplesPerNoteOf speed :=
  Nat.le_max_left _ _

/-- R30: the longest note is that of speed 255. -/
theorem samplesPerNoteOf_headerSpeed_le (h : Word) : samplesPerNoteOf (headerSpeed h) ≤ 46665 := by
  have speed : headerSpeed h < 256 := (h.extractLsb' 0 8).isLt
  have product : headerSpeed h * 183 ≤ 46665 := by omega
  exact Nat.max_le.mpr ⟨by decide, product⟩

/-- TRIGGER stores the duration in 16 bits and loses nothing. -/
theorem Channel.bind_samplesPerNote_toNat (r : Roms) (x : BitVec 15) (c : Channel) :
    (c.bind r x).samplesPerNote.toNat = samplesPerNoteOf (headerSpeed (Roms.header r x.toNat)) := by
  have longest := samplesPerNoteOf_headerSpeed_le (Roms.header r x.toNat)
  rw [Channel.bind_samplesPerNote, BitVec.toNat_ofNat]
  exact Nat.mod_eq_of_lt (by omega)

theorem Channel.noteFloor_le_bind_samplesPerNote (r : Roms) (x : BitVec 15) (c : Channel) :
    183 ≤ (c.bind r x).samplesPerNote.toNat :=
  (noteFloor_le_samplesPerNoteOf _).trans_eq (c.bind_samplesPerNote_toNat r x).symm

theorem activeAfterTrigger_iff {n : Half} : activeAfterTrigger n = true ↔ noteClass n = .sounding := by
  simp [activeAfterTrigger]

theorem activeAfterTick_iff {n : Half} : activeAfterTick n = true ↔ noteClass n ≠ .dead := by
  simp [activeAfterTick]

/-- R111: what a Sounding note's fields are. -/
theorem fields_of_noteClass_sounding {n : Half} (h : noteClass n = .sounding) :
    noteVolume n ≠ 0#3 ∧ notePitch n < 64 := by
  rcases noteClass_cases n with ⟨_, hc⟩ | ⟨hv, hp, _⟩ | ⟨_, _, hc⟩
  · exact absurd (h.symm.trans hc) (by decide)
  · exact ⟨hv, hp⟩
  · exact absurd (h.symm.trans hc) (by decide)

/-! ### Operations on a channel -/

/-- A channel that is neither bound nor active owes the ROMs nothing. -/
theorem Channel.Inv.of_unbound_idle (hb : c.bound = false) (ha : c.active = false) : Channel.Inv r c := by
  have notBound : c.bound ≠ true := by simp [hb]
  have notActive : c.active ≠ true := by simp [ha]
  exact
    { sfxInRange := fun h => absurd h notBound
      noteFloor := fun h => absurd h notBound
      duration := fun h => absurd h notBound
      loops := fun h => absurd h notBound
      loaded := fun h => absurd h notBound
      timeLeft := fun h => absurd h notActive
      activeBound := fun h => absurd h notActive
      sounding := fun h => absurd h notActive
      restStill := fun h => absurd h notActive }

theorem Channel.Inv.reset (r : Roms) : Channel.Inv r Channel.reset :=
  .of_unbound_idle rfl rfl

/-- The invariant says nothing of the phase. -/
theorem Channel.Inv.withPhase (h : Channel.Inv r c) (p : BitVec 16) : Channel.Inv r { c with phase := p } :=
  { sfxInRange := h.sfxInRange
    noteFloor := h.noteFloor
    duration := h.duration
    loops := h.loops
    loaded := h.loaded
    timeLeft := h.timeLeft
    activeBound := h.activeBound
    sounding := h.sounding
    restStill := h.restStill }

/-- SAMPLE's part (42_mixer.md R141). -/
theorem Channel.Inv.advancePhase (h : Channel.Inv r c) : Channel.Inv r c.advancePhase := by
  rcases c.advancePhase_cases with ⟨_, hc⟩ | ⟨_, hc⟩ <;> rw [hc]
  · exact h.withPhase _
  · exact h

/-- An Idle channel keeps what it owes the record it is bound to. -/
theorem Channel.Inv.stop (h : Channel.Inv r c) : Channel.Inv r c.stop := by
  have idle : c.stop.active ≠ true := by simp
  exact
    { sfxInRange := h.sfxInRange
      noteFloor := h.noteFloor
      duration := h.duration
      loops := h.loops
      loaded := h.loaded
      timeLeft := fun ha => absurd ha idle
      activeBound := fun ha => absurd ha idle
      sounding := fun ha => absurd ha idle
      restStill := fun ha => absurd ha idle }

/-- The count may become anything that leaves time in the note. -/
theorem Channel.Inv.withCount (h : Channel.Inv r c) {k : BitVec 16}
    (hk : c.active = true → k.toNat < c.samplesPerNote.toNat) : Channel.Inv r { c with sampleCount := k } :=
  { sfxInRange := h.sfxInRange
    noteFloor := h.noteFloor
    duration := h.duration
    loops := h.loops
    loaded := h.loaded
    timeLeft := hk
    activeBound := h.activeBound
    sounding := h.sounding
    restStill := h.restStill }

/-- R40 (b) leaves time in a note whose count starts again. -/
theorem Channel.Inv.clearCount (h : Channel.Inv r c) : Channel.Inv r c.clearCount :=
  h.withCount fun ha => Nat.lt_of_lt_of_le (by decide) (h.noteFloor (h.activeBound ha))

/-- TICK's load of a note (41_sequencer.md R121): Sounding and Rest set the increment, Dead leaves the voice Idle. -/
theorem Channel.Inv.loadNote (h : Channel.Inv r c) (ha : c.active = true) (k : BitVec 5) :
    Channel.Inv r (c.loadNote r k) where
  sfxInRange := h.sfxInRange
  noteFloor := h.noteFloor
  duration := h.duration
  loops := h.loops
  loaded _ := ⟨rfl, rfl⟩
  timeLeft _ := h.timeLeft ha
  activeBound _ := h.activeBound ha
  sounding alive loud := by
    rw [Channel.loadNote_active, activeAfterTick_iff] at alive
    rcases noteClass_cases (Roms.note r c.sfx.toNat k.toNat) with ⟨silent, _⟩ | ⟨_, hp, hc⟩ | ⟨_, _, dead⟩
    · exact absurd silent loud
    · exact ⟨hp, by simp [hc]⟩
    · exact absurd dead alive
  restStill _ silent := by
    rcases noteClass_cases (Roms.note r c.sfx.toNat k.toNat) with ⟨_, hc⟩ | ⟨loud, _⟩ | ⟨loud, _⟩
    · simp [hc]
    · exact absurd silent loud
    · exact absurd silent loud

/-- The end of a note's time: the end of the sequence, or the next note. -/
theorem Channel.Inv.advance (h : Channel.Inv r c) (ha : c.active = true) : Channel.Inv r (c.advance r) := by
  rcases c.advance_cases r with ⟨_, hc⟩ | ⟨k, _, hc⟩ <;> rw [hc]
  · exact h.stop
  · exact h.loadNote ha k

/-- The count of a frame is discarded when the note advances. -/
@[simp] theorem Channel.clearCount_countFrame (c : Channel) : c.countFrame.clearCount = c.clearCount := rfl

/-- TICK's part (R121). -/
theorem Channel.Inv.tick (h : Channel.Inv r c) : Channel.Inv r (c.tick r) := by
  rcases c.tick_cases r with ⟨_, hc⟩ | ⟨_, left, hc⟩ | ⟨ha, _, hc⟩ <;> rw [hc]
  · exact h
  · exact h.withCount fun _ => BitVec.lt_def.mp left
  · rw [Channel.clearCount_countFrame]
    exact h.clearCount.advance ha

/-- A TRIGGER within `NUM_SFX` needs nothing of the channel it overwrites (R116). -/
theorem Channel.Inv.trigger {x : BitVec 15} (hx : x.toNat < r.numSfx) (c : Channel) :
    Channel.Inv r (c.trigger r x) where
  sfxInRange _ := hx
  noteFloor _ := c.noteFloor_le_bind_samplesPerNote r x
  duration _ := c.bind_samplesPerNote_toNat r x
  loops _ := rfl
  loaded _ := ⟨rfl, rfl⟩
  timeLeft _ := Nat.lt_of_lt_of_le (by decide : 0 < 183) (c.noteFloor_le_bind_samplesPerNote r x)
  activeBound _ := rfl
  sounding alive _ := by
    have hc := activeAfterTrigger_iff.mp alive
    exact ⟨(fields_of_noteClass_sounding hc).2, if_pos hc⟩
  restStill alive silent :=
    absurd silent (fields_of_noteClass_sounding (activeAfterTrigger_iff.mp alive)).1

/-! ### The LFSR -/

/-- R97: the feedback bit enters at the top, every other bit moves down by one. -/
theorem getLsbD_lfsrNext (l : BitVec 16) (i : Nat) :
    (lfsrNext l).getLsbD i = if i = 15 then lfsrBit l else l.getLsbD (i + 1) := by
  rw [lfsrNext, BitVec.getLsbD_cons, BitVec.getLsbD_extractLsb', Nat.add_comm 1 i]
  by_cases hi : i < 15
  · simp [hi]
  · simp [hi, BitVec.getLsbD_of_ge l (i + 1) (by omega)]

/-- R101: a step to 0 starts at 0. Bits 1 to 15 move down, and with those 0 the feedback bit is bit 0. -/
theorem lfsrNext_ne_zero {l : BitVec 16} (h : l ≠ 0#16) : lfsrNext l ≠ 0#16 := by
  intro hz
  have next (i : Nat) : (if i = 15 then lfsrBit l else l.getLsbD (i + 1)) = false := by
    rw [← getLsbD_lfsrNext, hz, BitVec.getLsbD_zero]
  have moved (i : Nat) (hi : i ≠ 15) : l.getLsbD (i + 1) = false := (if_neg hi).symm.trans (next i)
  have low : l.getLsbD 0 = false :=
    calc l.getLsbD 0 = lfsrBit l := by
          simp only [lfsrBit, moved 1 (by decide), moved 2 (by decide), moved 4 (by decide), Bool.xor_false]
      _ = false := next 15
  refine h (BitVec.eq_of_getLsbD_eq fun i hi => ?_)
  rw [BitVec.getLsbD_zero]
  cases i with
  | zero => exact low
  | succ i => exact moved i (by omega)

theorem gen_lfsr_ne_zero {l : BitVec 16} (h : l ≠ 0#16) (w : BitVec 3) (p : BitVec 16) : (gen w p l).lfsr ≠ 0#16 := by
  by_cases hw : w = 6#3
  · rw [hw, gen_noise]
    exact lfsrNext_ne_zero h
  · rw [(gen_pure hw p l).1]
    exact h

theorem mixChannel_lfsr_ne_zero {acc : MixAcc} (h : acc.lfsr ≠ 0#16) (c : Channel) :
    (mixChannel acc c).lfsr ≠ 0#16 := by
  cases hc : contributes c
  · rw [mixChannel_off hc]
    exact h
  · rw [mixChannel_on hc]
    exact gen_lfsr_ne_zero h _ _

theorem mixAll_lfsr_ne_zero {l : BitVec 16} (h : l ≠ 0#16) (channels : List Channel) :
    (mixAll l channels).lfsr ≠ 0#16 :=
  List.foldlRecOn channels mixChannel (motive := fun acc => acc.lfsr ≠ 0#16) h
    fun _ hacc c _ => mixChannel_lfsr_ne_zero hacc c

/-! ### Operations on the block -/

theorem Block.Inv.reset (r : Roms) : Block.Inv r Block.reset where
  channels i := by
    rw [Block.reset_channel]
    exact .reset r
  lfsrNonzero := by decide

theorem Block.Inv.updateChannel (h : Block.Inv r b) {i : Fin 4} {g : Channel → Channel}
    (hg : Channel.Inv r (g (b.channel i))) : Block.Inv r (b.updateChannel i g) where
  channels j := by
    by_cases hj : j = i
    · rw [hj, Block.updateChannel_channel_same]
      exact hg
    · rw [Block.updateChannel_channel_ne b g hj]
      exact h.channels j
  lfsrNonzero := h.lfsrNonzero

theorem Block.Inv.mapChannels (h : Block.Inv r b) {g : Channel → Channel}
    (hg : ∀ {c}, Channel.Inv r c → Channel.Inv r (g c)) : Block.Inv r (b.mapChannels g) where
  channels i := by
    rw [Block.mapChannels_channel]
    exact hg (h.channels i)
  lfsrNonzero := h.lfsrNonzero

theorem Block.Inv.stop (h : Block.Inv r b) (ch : BitVec 8) : Block.Inv r (b.stop ch) := by
  rcases b.stop_cases ch with ⟨_, hb⟩ | ⟨i, _, hb⟩ <;> rw [hb]
  · exact h
  · exact h.updateChannel (h.channels i).stop

theorem Block.Inv.trigger (h : Block.Inv r b) (ch : BitVec 8) (x : BitVec 15) : Block.Inv r (b.trigger ch x r) := by
  rcases b.trigger_cases ch x r with ⟨_, hb⟩ | ⟨i, _, hx, hb⟩ <;> rw [hb]
  · exact h
  · exact h.updateChannel (.trigger hx _)

theorem Block.Inv.sample (h : Block.Inv r b) : Block.Inv r b.sample where
  channels i := by
    rw [Block.sample_channel]
    exact (h.channels i).advancePhase
  lfsrNonzero := by
    rw [Block.sample_lfsr]
    exact mixAll_lfsr_ne_zero h.lfsrNonzero _

theorem Block.Inv.setVolume (h : Block.Inv r b) (level : BitVec 8) : Block.Inv r (b.setVolume level) :=
  ⟨h.channels, h.lfsrNonzero⟩

/-- Every command keeps the block's invariant (R40). -/
theorem Block.Inv.blockAfter (h : Block.Inv r b) (i : Instr) : Block.Inv r (blockAfter i r b) := by
  cases i with
  | stop ch => exact h.stop ch
  | stopall _ => exact h.mapChannels Channel.Inv.stop
  | trigger ch x => exact h.trigger ch x
  | tick => exact h.mapChannels Channel.Inv.tick
  | sample => exact h.sample
  | setvol level => exact h.setVolume level
  | nop | rsvdTrig | rsvdOp5 | rsvdOp6_7 | rsvdOp8_F => exact h

/-! ### The reset input and a step -/

/-- Releasing reset ends it, and is nothing while it is not asserted (log 9). -/
theorem State.resetEdge_release_cases (s : State) :
    (s.power = .asserted ∧ s.resetEdge .release = { s with power := .released }) ∨
    (s.power ≠ .asserted ∧ s.resetEdge .release = s) := by
  cases hp : s.power <;> simp [State.resetEdge, hp]

/-- No edge of the reset input changes the ROMs (R43). -/
@[simp] theorem State.resetEdge_roms (s : State) (e : ResetEdge) : (s.resetEdge e).roms = s.roms := by
  cases e with
  | assert => rfl
  | release => rcases s.resetEdge_release_cases with ⟨_, h⟩ | ⟨_, h⟩ <;> rw [h]

theorem State.Inv.resetWith (hr : Roms.wf r = true) : State.Inv (State.resetWith r) where
  romsLegal := hr
  blockInv _ := .reset r
  heldReset _ := rfl

theorem State.Inv.powerOn (hr : Roms.wf r = true) : State.Inv (State.powerOn r) where
  romsLegal := hr
  blockInv _ := .reset r
  heldReset _ := rfl

/-- The invariant reads only the ROMs, the reset input and the block. -/
theorem State.Inv.of_eq (h : State.Inv s) (hr : t.roms = s.roms) (hp : t.power = s.power)
    (hb : t.block = s.block) : State.Inv t where
  romsLegal := by
    rw [hr]
    exact h.romsLegal
  blockInv := by
    rw [hr, hp, hb]
    exact h.blockInv
  heldReset := by
    rw [hp, hb]
    exact h.heldReset

theorem State.Inv.resetEdge (h : State.Inv s) (e : ResetEdge) : State.Inv (s.resetEdge e) := by
  cases e with
  | assert => exact ⟨h.romsLegal, fun _ => .reset _, fun _ => rfl⟩
  | release =>
    rcases s.resetEdge_release_cases with ⟨held, hs⟩ | ⟨_, hs⟩ <;> rw [hs]
    · exact ⟨h.romsLegal, fun _ => h.blockInv (by simp [held]), fun hp => by cases hp⟩
    · exact h

/-- A command runs only while reset is released, so its block need not be the reset block. -/
theorem State.Inv.withBlock (h : State.Inv s) (hp : s.power = .released) (hb : Block.Inv s.roms b) :
    State.Inv (s.withBlock b) where
  romsLegal := h.romsLegal
  blockInv _ := hb
  heldReset held := absurd (hp.symm.trans held) (by decide)

theorem State.Inv.popPort (h : State.Inv s) (c : Context) (rest : List Access) : State.Inv (s.popPort c rest) :=
  h.of_eq (by simp) (by simp) (by simp)

theorem State.Inv.setPort (h : State.Inv s) (c : Context) (p : Port) : State.Inv (s.setPort c p) :=
  h.of_eq (by simp) (by simp) (by simp)

theorem State.Inv.popEdge (h : State.Inv s) (rest : List ResetEdge) : State.Inv (s.popEdge rest) :=
  h.of_eq rfl rfl rfl

/-- With the platform granted, a step serves the oldest edge of the reset input. -/
theorem step_of_granted_platform {e : ResetEdge} {rest : List ResetEdge} (hg : s.granted = some .platform)
    (hp : s.platform = e :: rest) : step s = .next ((s.popEdge rest).resetEdge e) := by
  rcases step_by_agent s with ⟨hn, _⟩ | ⟨e', rest', _, hp', hs⟩ | ⟨c, a, rest', hc, _⟩
  · exact absurd (hg.symm.trans hn) (by simp)
  · obtain ⟨rfl, rfl⟩ := List.cons.inj (hp.symm.trans hp')
    exact hs
  · exact absurd (hg.symm.trans hc) (by simp)

end Rules

/-! ### The obligations -/

/-- Settles O44: by what a step can serve, an edge of the reset input or an access, and a command by
`Block.Inv.blockAfter`. -/
theorem everyStepKeepsTheInvariant : Obligations.EveryStepKeepsTheInvariant := by
  intro s t h hs
  rcases step_cases hs with rfl | ⟨e, rest, _, rfl⟩ | ⟨c, rest, rfl⟩ | ⟨c, rest, v, rfl⟩ | ⟨c, rest, i, hp, rfl⟩
  · exact h
  · exact (h.popEdge rest).resetEdge e
  · exact h.popPort c rest
  · exact (h.popPort c rest).setPort c _
  · have hb : Block.Inv s.roms s.block := h.blockInv (by simp [hp])
    refine (h.popPort c rest).withBlock (by simpa using hp) ?_
    rw [State.popPort_roms]
    exact hb.blockAfter i

/-- Settles O45: (a) and (f) hold by the fields' types, (b) and (c) from the duration of R30. -/
theorem invariantGivesTheListedBounds : Obligations.InvariantGivesTheListedBounds := by
  intro r b h
  refine ⟨List.length_filter_le _ b.ch.toList, fun i => ?_⟩
  have hc := h.channels i
  have longest : (b.channel i).bound = true → (b.channel i).samplesPerNote.toNat ≤ 46665 := fun hb =>
    (hc.duration hb).trans_le (samplesPerNoteOf_headerSpeed_le _)
  refine ⟨(b.channel i).noteIndex.isLt, fun hb => ⟨hc.noteFloor hb, longest hb⟩, fun ha => ?_⟩
  have hb := hc.activeBound ha
  have left := hc.timeLeft ha
  have bound := longest hb
  exact ⟨hb, by omega, by omega⟩

/-- Settles O46: by what a step can serve. -/
theorem noStepChangesTheRoms : Obligations.NoStepChangesTheRoms := by
  intro s t hs
  rcases step_cases hs with rfl | ⟨e, rest, _, rfl⟩ | ⟨c, rest, rfl⟩ | ⟨c, rest, v, rfl⟩ | ⟨c, rest, i, _, rfl⟩
  · rfl
  · rw [State.resetEdge_roms, State.popEdge_roms]
  · rw [State.popPort_roms]
  · rw [State.setPort_roms, State.popPort_roms]
  · rw [State.withBlock_roms, State.popPort_roms]

/-- Settles O41: the step is the assert edge, which puts `Block.reset` in place of the block. -/
theorem resetSetsEveryField : Obligations.ResetSetsEveryField := by
  refine ⟨fun s rest hg hp => ⟨_, step_of_granted_platform hg hp, ?_⟩, rfl, rfl⟩
  refine ⟨rfl, rfl, rfl, rfl, rfl, rfl, rfl, rfl, fun i => ?_⟩
  rw [State.resetEdge_assert_block, Block.reset_channel]
  exact ⟨rfl, rfl, rfl, rfl, rfl, rfl, rfl, rfl, rfl, rfl, rfl⟩

/-- Settles O43: the installed ROMs are legal, and the reset block meets the invariant under any. -/
theorem invariantHoldsAtReset : Obligations.InvariantHoldsAtReset :=
  ⟨.resetWith Roms.installed_wf, fun _ hr => ⟨.resetWith hr, .powerOn hr⟩⟩

end Sys2Proof.Machine
end

section
/-!
What a command can read of the two ROMs (spec 20_memory.md R51, R53, R54, R57): the pitch table, and of a record's
words the 24 header bits and 13 note bits that `usedHeaderBits` and `usedNoteBits` keep. One congruence rule per
operation on a channel, then on the block.
-/
namespace Sys2Proof.Machine

/-- The sequencer reads the pitch ROM and nothing else of the ROMs for an increment (R51, 41_sequencer.md R112). -/
theorem phaseInc_congr {r q : Roms} (h : r.pitch = q.pitch) (k : Nat) : phaseInc r k = phaseInc q k := by
  rw [phaseInc, phaseInc, Roms.pitchHz, Roms.pitchHz, h]

/-! ### The fields lie inside the used bits -/

theorem headerSpeed_eq_used (h : Word) : headerSpeed h = ((usedHeaderBits h).extractLsb' 0 8).toNat := by
  rw [usedHeaderBits, BitVec.extractLsb'_extractLsb'_of_le (by decide), headerSpeed]

theorem headerLoopStart_eq_used (h : Word) : headerLoopStart h = ((usedHeaderBits h).extractLsb' 8 8).toNat := by
  rw [usedHeaderBits, BitVec.extractLsb'_extractLsb'_of_le (by decide), headerLoopStart]

theorem headerLoopEnd_eq_used (h : Word) : headerLoopEnd h = ((usedHeaderBits h).extractLsb' 16 8).toNat := by
  rw [usedHeaderBits, BitVec.extractLsb'_extractLsb'_of_le (by decide), headerLoopEnd]

theorem notePitch_eq_used (n : Half) : notePitch n = ((usedNoteBits n).extractLsb' 0 7).toNat := by
  rw [usedNoteBits, BitVec.extractLsb'_extractLsb'_of_le (by decide), notePitch]

theorem noteWaveform_eq_used (n : Half) : noteWaveform n = (usedNoteBits n).extractLsb' 7 3 := by
  rw [usedNoteBits, BitVec.extractLsb'_extractLsb'_of_le (by decide), noteWaveform]

theorem noteVolume_eq_used (n : Half) : noteVolume n = (usedNoteBits n).extractLsb' 10 3 := by
  rw [usedNoteBits, BitVec.extractLsb'_extractLsb'_of_le (by decide), noteVolume]

section Words
variable {n m : Half} {h g : Word}

theorem notePitch_congr (e : usedNoteBits n = usedNoteBits m) : notePitch n = notePitch m := by
  rw [notePitch_eq_used, e, ← notePitch_eq_used]

theorem noteWaveform_congr (e : usedNoteBits n = usedNoteBits m) : noteWaveform n = noteWaveform m := by
  rw [noteWaveform_eq_used, e, ← noteWaveform_eq_used]

theorem noteVolume_congr (e : usedNoteBits n = usedNoteBits m) : noteVolume n = noteVolume m := by
  rw [noteVolume_eq_used, e, ← noteVolume_eq_used]

/-- The class of a note reads its pitch and volume (41_sequencer.md R111). -/
theorem noteClass_congr (e : usedNoteBits n = usedNoteBits m) : noteClass n = noteClass m := by
  rw [noteClass, noteClass, noteVolume_congr e, notePitch_congr e]

theorem Channel.loadFields_congr (e : usedNoteBits n = usedNoteBits m) (c : Channel) :
    c.loadFields n = c.loadFields m := by
  rw [Channel.loadFields, Channel.loadFields, noteWaveform_congr e, noteVolume_congr e]

theorem loopingFlag_congr (e : usedHeaderBits h = usedHeaderBits g) : loopingFlag h = loopingFlag g := by
  rw [loopingFlag, loopingFlag, headerLoopStart_eq_used, headerLoopEnd_eq_used, e, ← headerLoopStart_eq_used,
    ← headerLoopEnd_eq_used]

end Words

/-! ### Operations on a channel and on the block -/

section Operations
variable {r q : Roms} {c : Channel} {b : Block}

theorem Roms.agree.header (h : Roms.agree r q) {x : Nat} (hx : x < r.numSfx) :
    usedHeaderBits (Roms.header r x) = usedHeaderBits (Roms.header q x) := by
  obtain ⟨_, _, records⟩ := h
  exact (records x hx).1

theorem Roms.agree.note (h : Roms.agree r q) {x : Nat} (hx : x < r.numSfx) {k : Nat} (hk : k < 32) :
    usedNoteBits (Roms.note r x k) = usedNoteBits (Roms.note q x k) := by
  obtain ⟨_, _, records⟩ := h
  exact (records x hx).2 k hk

theorem Roms.agree.numSfx (h : Roms.agree r q) : r.numSfx = q.numSfx := by
  obtain ⟨_, count, _⟩ := h
  exact count

theorem Roms.agree.phaseInc (h : Roms.agree r q) (k : Nat) : phaseInc r k = phaseInc q k :=
  phaseInc_congr h.1 k

/-- TRIGGER reads the header's speed and loop fields, and note 0 (41_sequencer.md R116). -/
theorem Roms.agree.channelTrigger (h : Roms.agree r q) {x : BitVec 15} (hx : x.toNat < r.numSfx) (c : Channel) :
    c.trigger r x = c.trigger q x := by
  have header := h.header hx
  have note := h.note hx (show 0 < 32 by decide)
  have bound : c.bind r x = c.bind q x := by
    rw [Channel.bind, Channel.bind, loopingFlag_congr header, headerSpeed_eq_used, header, ← headerSpeed_eq_used]
  rw [Channel.trigger, Channel.trigger, bound, Channel.startNote, Channel.startNote, Channel.loadFields_congr note,
    activeAfterTrigger, activeAfterTrigger, noteClass_congr note, notePitch_congr note, h.phaseInc]

/-- TICK's load reads one note word, at a 5-bit index (41_sequencer.md R121). -/
theorem Roms.agree.loadNote (h : Roms.agree r q) (hc : c.sfx.toNat < r.numSfx) (k : BitVec 5) :
    c.loadNote r k = c.loadNote q k := by
  have note := h.note hc k.isLt
  simp only [Channel.loadNote, Channel.loadFields_congr note, activeAfterTick, noteClass_congr note,
    notePitch_congr note, h.phaseInc]

/-- The end of a note's time reads the header's loop fields besides. -/
theorem Roms.agree.advance (h : Roms.agree r q) (hc : c.sfx.toNat < r.numSfx) : c.advance r = c.advance q := by
  have header := h.header hc
  simp only [Channel.advance, headerLoopStart_eq_used, headerLoopEnd_eq_used, header, h.loadNote hc]

/-- TICK reads the ROMs only for an active channel, whose record is in range (10_state.md R26, R40 (d)). -/
theorem Roms.agree.channelTick (h : Roms.agree r q) (hc : Channel.Inv r c) : c.tick r = c.tick q := by
  rcases c.tick_cases r with ⟨idle, hr⟩ | ⟨alive, left, hr⟩ | ⟨alive, out, hr⟩ <;> rw [hr]
  · rw [Channel.tick_idle idle]
  · rw [Channel.tick_same_note alive left]
  · have inRange : c.sfx.toNat < r.numSfx := hc.sfxInRange (hc.activeBound alive)
    rw [Channel.tick_time_out alive out]
    exact h.advance inRange

theorem Block.mapChannels_congr {f g : Channel → Channel} (h : ∀ i, f (b.channel i) = g (b.channel i)) :
    b.mapChannels f = b.mapChannels g :=
  Block.ext_channel (fun i => by rw [Block.mapChannels_channel, Block.mapChannels_channel, h]) rfl rfl rfl

theorem Roms.agree.blockTick (h : Roms.agree r q) (hb : Block.Inv r b) : b.tick r = b.tick q :=
  Block.mapChannels_congr fun i => h.channelTick (hb.channels i)

theorem Roms.agree.blockTrigger (h : Roms.agree r q) (ch : BitVec 8) (x : BitVec 15) (b : Block) :
    b.trigger ch x r = b.trigger ch x q := by
  rw [Block.trigger, Block.trigger, ← h.numSfx]
  cases channelIndex ch with
  | none => rfl
  | some i =>
    by_cases hx : x.toNat < r.numSfx
    · simp only [if_pos hx, Block.updateChannel, h.channelTrigger hx]
    · simp only [if_neg hx]

/-- Only TRIGGER and TICK read the ROMs at all. -/
theorem Roms.agree.blockAfter (h : Roms.agree r q) (hb : Block.Inv r b) (i : Instr) :
    blockAfter i r b = blockAfter i q b := by
  cases i with
  | trigger ch x => exact h.blockTrigger ch x b
  | tick => exact h.blockTick hb
  | nop | stop | stopall | rsvdTrig | sample | setvol | rsvdOp5 | rsvdOp6_7 | rsvdOp8_F => rfl

end Operations

/-- Settles O14: each run makes the block `blockAfter` of its own ROMs, and agreeing ROMs give the same one. -/
theorem reservedRomBitsAreNotObservable : Obligations.ReservedRomBitsAreNotObservable := by
  intro i s q agree inv
  refine ⟨blockAfter i s.roms s.block, exec_eq i s, ?_⟩
  rw [agree.blockAfter inv i]
  exact exec_eq i { s with roms := q }

end Sys2Proof.Machine
end

section
/-!
The layout of the sound-effect ROM image (spec 20_memory.md R53, R54, R56), from a word's bytes to a record's and from
a record's to the image's, and the words read back from it.
-/
namespace Sys2Proof.Machine

/-! ### Little-endian words -/

/-- A part of a part of a word, inside it, is a part of the word. -/
theorem extractLsb'_extractLsb'_add {w start len start' len' : Nat} (x : BitVec w) (h : start' + len' ≤ len) :
    (x.extractLsb' start len).extractLsb' start' len' = x.extractLsb' (start + start') len' := by
  apply BitVec.eq_of_getLsbD_eq
  intro i hi
  have inside : start' + i < len := by omega
  simp [hi, inside, Nat.add_assoc]

/-- A 16-bit word is read back where its two bytes stand in order (R56). -/
theorem Memory.half_of_bytes {m : Memory} {a : Nat} {n : Half}
    (h : ∀ j, j < 2 → Memory.read m (a + j) = n.extractLsb' (8 * j) 8) : Memory.half m a = n := by
  have low : Memory.read m a = n.extractLsb' 0 8 := h 0 (by decide)
  have high : Memory.read m (a + 1) = n.extractLsb' 8 8 := h 1 (by decide)
  rw [Memory.half, low, high]
  exact BitVec.extractLsb'_append_extractLsb'

/-- A 32-bit word is read back where its four bytes stand in order (R56). -/
theorem Memory.word_of_bytes {m : Memory} {a : Nat} {v : Word}
    (h : ∀ j, j < 4 → Memory.read m (a + j) = v.extractLsb' (8 * j) 8) : Memory.word m a = v := by
  have low : Memory.half m a = v.extractLsb' 0 16 := Memory.half_of_bytes fun j hj => by
    rw [extractLsb'_extractLsb'_add v (by omega), Nat.zero_add]
    exact h j (by omega)
  have high : Memory.half m (a + 2) = v.extractLsb' 16 16 := Memory.half_of_bytes fun j hj => by
    rw [extractLsb'_extractLsb'_add v (by omega), Nat.add_assoc, h (2 + j) (by omega), Nat.mul_add]
  rw [Memory.word, low, high]
  exact BitVec.extractLsb'_append_extractLsb'

theorem bytesOfHalf_length (n : Half) : (bytesOfHalf n).length = 2 := rfl

/-- R56: byte 0 is the least significant. -/
theorem bytesOfHalf_getElem? (n : Half) {j : Nat} (hj : j < 2) :
    (bytesOfHalf n)[j]? = some (n.extractLsb' (8 * j) 8) := by
  match j, hj with
  | 0, _ | 1, _ => rfl

/-! ### Lists of equal pieces -/

section Pieces
variable {α β : Type} {f : α → List β} {n : Nat}

theorem length_flatMap_of_length_eq (hf : ∀ a, (f a).length = n) (l : List α) :
    (l.flatMap f).length = l.length * n := by
  simp [List.length_flatMap, hf]

/-- Among pieces of length `n`, item `j` of piece `s` is the whole list's item `n * s + j`. -/
theorem getElem?_flatMap_of_length_eq (hf : ∀ a, (f a).length = n) {l : List α} {s j : Nat} {a : α}
    (hs : l[s]? = some a) (hj : j < n) : (l.flatMap f)[n * s + j]? = (f a)[j]? := by
  induction l generalizing s with
  | nil => simp at hs
  | cons x xs ih =>
    rw [List.flatMap_cons]
    cases s with
    | zero =>
      obtain rfl : x = a := by simpa using hs
      rw [Nat.mul_zero, Nat.zero_add, List.getElem?_append_left (by rw [hf]; exact hj)]
    | succ s =>
      have later : n * (s + 1) + j = (f x).length + (n * s + j) := by rw [hf, Nat.mul_succ]; omega
      rw [later, List.getElem?_append_right (Nat.le_add_right _ _), Nat.add_sub_cancel_left]
      exact ih (by simpa using hs)

end Pieces

/-! ### One record -/

/-- The bytes of a record's notes, after its header (R54, R56). -/
def SfxRecord.noteBytes (rec : SfxRecord) : List Byte :=
  (List.range Config.notesPerSfx).flatMap fun k => bytesOfHalf (rec.notes.getD k 0#16)

/-- The four bytes of a record's header word (R53, R56). -/
def SfxRecord.headerBytes (rec : SfxRecord) : List Byte :=
  bytesOfHalf (rec.header.extractLsb' 0 16) ++ bytesOfHalf (rec.header.extractLsb' 16 16)

theorem SfxRecord.bytes_eq (rec : SfxRecord) : rec.bytes = rec.headerBytes ++ rec.noteBytes := rfl

theorem SfxRecord.headerBytes_length (rec : SfxRecord) : rec.headerBytes.length = 4 := rfl

/-- R56: a record is 4 bytes of header and 32 notes of 2 bytes. -/
theorem SfxRecord.bytes_length (rec : SfxRecord) : rec.bytes.length = 68 := by
  have notes : rec.noteBytes.length = 32 * 2 := by
    rw [SfxRecord.noteBytes, length_flatMap_of_length_eq (fun _ => bytesOfHalf_length _), List.length_range]
    rfl
  rw [rec.bytes_eq, List.length_append, rec.headerBytes_length, notes]

/-- R53: bytes 0 to 3 are the header's. -/
theorem SfxRecord.bytes_header (rec : SfxRecord) {j : Nat} (hj : j < 4) :
    rec.bytes[j]? = some (rec.header.extractLsb' (8 * j) 8) := by
  rw [rec.bytes_eq, List.getElem?_append_left (by rw [rec.headerBytes_length]; exact hj)]
  match j, hj with
  | 0, _ | 1, _ | 2, _ | 3, _ => exact congrArg some (extractLsb'_extractLsb'_add rec.header (by decide))

/-- R54: note `k`'s two bytes follow the header and the notes before it. -/
theorem SfxRecord.bytes_note (rec : SfxRecord) {k j : Nat} (hk : k < 32) (hj : j < 2) :
    rec.bytes[4 + 2 * k + j]? = some ((rec.notes.getD k 0#16).extractLsb' (8 * j) 8) := by
  have index : (List.range Config.notesPerSfx)[k]? = some k := List.getElem?_range hk
  have afterHeader : 4 + 2 * k + j - rec.headerBytes.length = 2 * k + j := by
    rw [rec.headerBytes_length]
    omega
  rw [rec.bytes_eq, List.getElem?_append_right (by rw [rec.headerBytes_length]; omega), afterHeader,
    SfxRecord.noteBytes, getElem?_flatMap_of_length_eq (fun _ => bytesOfHalf_length _) index hj, bytesOfHalf_getElem? _ hj]

/-! ### The image -/

section Image
variable {pitch : List Half} {recs : List SfxRecord} {s : Nat} {rec : SfxRecord}

/-- R56: byte `j` of record `s` stands at `68 * s + j` of the image. -/
theorem Roms.read_ofRecords (hs : recs[s]? = some rec) {j : Nat} {v : Byte} (hv : rec.bytes[j]? = some v) :
    Memory.read (Roms.ofRecords pitch recs).sfx (68 * s + j) = v := by
  have hj : j < 68 := by
    rw [← rec.bytes_length]
    exact (List.getElem?_eq_some_iff.mp hv).1
  have byte : (imageBytes recs)[68 * s + j]? = some v := by
    rw [imageBytes, getElem?_flatMap_of_length_eq SfxRecord.bytes_length hs hj]
    exact hv
  have inside : 68 * s + j < (imageBytes recs).length := (List.getElem?_eq_some_iff.mp byte).1
  rw [Roms.ofRecords, Memory.read_load rfl, if_pos ⟨Nat.zero_le _, by omega⟩, Nat.sub_zero, List.getD_eq_getElem?_getD,
    byte, Option.getD_some]

theorem Roms.read_ofRecords_header (hs : recs[s]? = some rec) {j : Nat} (hj : j < 4) :
    Memory.read (Roms.ofRecords pitch recs).sfx (68 * s + j) = rec.header.extractLsb' (8 * j) 8 :=
  Roms.read_ofRecords hs (rec.bytes_header hj)

theorem Roms.read_ofRecords_note (hs : recs[s]? = some rec) {k j : Nat} (hk : k < 32) (hj : j < 2) :
    Memory.read (Roms.ofRecords pitch recs).sfx (68 * s + 4 + 2 * k + j) =
      (rec.notes.getD k 0#16).extractLsb' (8 * j) 8 := by
  have place : 68 * s + 4 + 2 * k + j = 68 * s + (4 + 2 * k + j) := by omega
  rw [place]
  exact Roms.read_ofRecords hs (rec.bytes_note hk hj)

/-- R53: the header word is read back. -/
theorem Roms.header_ofRecords (hs : recs[s]? = some rec) : Roms.header (Roms.ofRecords pitch recs) s = rec.header :=
  Memory.word_of_bytes fun _ hj => Roms.read_ofRecords_header hs hj

/-- R54: every note word is read back. -/
theorem Roms.note_ofRecords (hs : recs[s]? = some rec) {k : Nat} (hk : k < 32) :
    Roms.note (Roms.ofRecords pitch recs) s k = rec.notes.getD k 0#16 :=
  Memory.half_of_bytes fun _ hj => Roms.read_ofRecords_note hs hk hj

end Image

/-- Settles O13: a record's bytes by their place, the words by their bytes. -/
theorem romImageHoldsItsRecords : Obligations.RomImageHoldsItsRecords := by
  refine ⟨SfxRecord.bytes_length, fun pitch recs s rec hs => ⟨rfl, Roms.header_ofRecords hs, ?_, fun k hk => ?_⟩⟩
  · exact fun j hj => Roms.read_ofRecords_header hs hj
  · have low := Roms.read_ofRecords_note (pitch := pitch) hs hk (show 0 < 2 by decide)
    have high := Roms.read_ofRecords_note (pitch := pitch) hs hk (show 1 < 2 by decide)
    exact ⟨Roms.note_ofRecords hs hk, low, high⟩

end Sys2Proof.Machine
end

section
/-!
The default pitch ROM (spec 20_memory.md R51, R52).
-/
namespace Sys2Proof.Machine

theorem pitchLegal_of_wf {r : Roms} (h : Roms.wf r = true) : pitchLegal r.pitch = true := by
  simp only [Roms.wf, Bool.and_eq_true] at h
  obtain ⟨⟨⟨⟨legal, _⟩, _⟩, _⟩, _⟩ := h
  exact legal

/-- Settles O9: the table is the stand-in ROMs', which are legal. The increments depend on the pitch table alone, so they are
the stand-in ROMs' too. -/
theorem defaultPitchRomGivesTheListedIncrements : Obligations.DefaultPitchRomGivesTheListedIncrements := by
  refine ⟨pitchLegal_of_wf Roms.blank_wf, rfl, fun r hr => ?_⟩
  have asBlank : phaseInc r = phaseInc Roms.blank := funext (phaseInc_congr hr)
  rw [asBlank]
  decide

end Sys2Proof.Machine
end

section
/-!
The register window and the interleaving of the agents (spec 20_memory.md R58 to R63, 60_exceptions.md R163): which
agent is granted, what the acceptance of each kind of access answers, and what a step makes of it.
-/
namespace Sys2Proof.Machine

/-! ### Encoded commands -/

/-- A word of format T decodes by its SFX field, row by row (30_encoding.md R74). -/
theorem decode_formatT (ch : BitVec 8) (sfx : BitVec 16) :
    decode (encodeFormatT ch sfx) =
      if sfx = 0xFFFF#16 then .stop ch
      else if sfx = 0xFFFE#16 then .stopall ch
      else if sfx.msb = false then .trigger ch (sfx.setWidth 15)
      else .rsvdTrig ch sfx := by
  have formatT : decode (encodeFormatT ch sfx) = decodeFormatT (encodeFormatT ch sfx) := by
    rw [decode, fieldOp_formatT]
    rfl
  rw [formatT, decodeFormatT, fieldSfx_formatT, fieldCh_formatT]

/-- The SFX field of a TRIGGER has its top bit clear, which both sentinels have set (R74). -/
theorem setWidth_msb_eq_false (sfx : BitVec 15) : (sfx.setWidth 16).msb = false := by
  simp [BitVec.msb_eq_getLsbD_last]

/-- R80: the encoder's word decodes to its command, whatever the format. -/
theorem decode_encode {i : Instr} (h : i.wellFormed = true) : decode (encode i) = i := by
  cases i with
  | nop | tick | sample | rsvdOp5 => rfl
  | stop ch => exact decode_formatT ch 0xFFFF#16
  | stopall ch => exact decode_formatT ch 0xFFFE#16
  | trigger ch sfx =>
    have index := setWidth_msb_eq_false sfx
    have notStop : sfx.setWidth 16 ≠ 0xFFFF#16 := fun e => absurd (e ▸ index) (by decide)
    have notStopall : sfx.setWidth 16 ≠ 0xFFFE#16 := fun e => absurd (e ▸ index) (by decide)
    rw [encode, decode_formatT, if_neg notStop, if_neg notStopall, if_pos index]
    simp
  | rsvdTrig ch sfx =>
    simp only [Instr.wellFormed, Bool.and_eq_true, decide_eq_true_eq] at h
    obtain ⟨low, high⟩ := h
    have notStop : sfx ≠ 0xFFFF#16 := by bv_omega
    have notStopall : sfx ≠ 0xFFFE#16 := by bv_omega
    have topBit : ¬sfx.msb = false := by rw [BitVec.msb_eq_decide]; simpa using low
    rw [encode, decode_formatT, if_neg notStop, if_neg notStopall, if_neg topBit]
  | setvol level =>
    rw [decode, fieldOp_setvol, fieldLevel_setvol]
    rfl
  | rsvdOp6_7 op =>
    rw [encode, decode, fieldOp_reserved]
    revert op
    decide
  | rsvdOp8_F op =>
    rw [encode, decode, fieldOp_reserved]
    revert op
    decide

section Rules
variable {s : State} {c : Context} {a : Access} {rest : List Access}

/-! ### The agent granted -/

/-- A choice number picks the agent at its remainder by the list's length. -/
theorem pickAgent_eq (k : Nat) (l : List Agent) : pickAgent k l = l[k % l.length]? := by
  match l with
  | [] => rfl
  | [a] => rw [List.length_singleton, Nat.mod_one]; rfl
  | _ :: _ :: _ => rfl

/-- R163: every agent of the list is picked by its own index, and no other agent is. -/
theorem mem_iff_exists_pickAgent {l : List Agent} {g : Agent} : g ∈ l ↔ ∃ k, pickAgent k l = some g := by
  refine ⟨fun h => ?_, fun ⟨_, hk⟩ => mem_of_pickAgent hk⟩
  obtain ⟨k, hk, rfl⟩ := List.mem_iff_getElem.mp h
  exact ⟨k, by rw [pickAgent_eq, Nat.mod_eq_of_lt hk, List.getElem?_eq_getElem hk]⟩

theorem pickAgent_eq_none {k : Nat} {l : List Agent} : pickAgent k l = none ↔ l = [] := by
  rw [pickAgent_eq, List.getElem?_eq_none_iff]
  refine ⟨fun h => List.length_eq_zero_iff.mp ?_, fun h => by rw [h]; exact Nat.zero_le _⟩
  by_contra nonempty
  exact absurd (Nat.mod_lt k (Nat.pos_of_ne_zero nonempty)) (Nat.not_lt.mpr h)

/-- With nothing else pending, the frame context's command is the one served (log 6). -/
theorem State.withCommand_granted (s : State) (w : Word) : (s.withCommand w).granted = some (.context .frame) := rfl

/-! ### The step of the agent granted -/

/-- With nothing granted the block waits (70_reset_and_hazards.md R180). -/
theorem step_of_granted_none (hg : s.granted = none) : step s = .next s := by
  rw [step, State.fetch, hg]

/-- With a context granted, a step serves its oldest access (R63). -/
theorem fetch_of_granted_context (hg : s.granted = some (.context c)) (hp : (s.port c).pending = a :: rest) :
    s.fetch = (s.popPort c rest).accept c a := by
  simp only [State.fetch, hg, State.serve, hp]

/-- No access leaves the block waiting: each is ignored, answered, run or refused. -/
theorem State.accept_ne_wait (s : State) (c : Context) (a : Access) : s.accept c a ≠ .wait := by
  rcases s.accept_cases c a with h | ⟨_, h⟩ | ⟨_, _, _, h⟩ | ⟨_, h⟩ <;> rw [h] <;> exact Fetched.noConfusion

/-! ### Acceptance by the kind of access -/

theorem State.accept_commandWrite (hp : s.power = .released) (c : Context) (w : Word) :
    s.accept c (commandWrite w) = .command w s := by
  have command : (commandWrite w).command = some w := command_eq_some.mpr rfl
  simp only [State.accept, command, hp]

/-- R63: with reset released and a command write the oldest access of the context granted, the step runs its word. -/
theorem step_of_commandWrite {w : Word} (hp : s.power = .released)
    (hg : s.granted = some (.context c)) (hpend : (s.port c).pending = commandWrite w :: rest) :
    step s = exec (decode w) (s.popPort c rest) := by
  rw [step, fetch_of_granted_context hg hpend,
    State.accept_commandWrite (by rw [State.popPort_power, hp])]

/-- R58, R59: only an aligned 32-bit write of CMD is more than taken off its list. -/
theorem State.accept_other_write {off : Fin 8} {wd : Width} (h : off ≠ 0 ∨ wd ≠ .w32) (s : State) (c : Context)
    (d : Word) : s.accept c (.write off wd d) = .served s := by
  have command : (Access.write off wd d).command = none := by
    rw [Option.eq_none_iff_forall_ne_some]
    intro w hw
    obtain ⟨rfl, rfl, _⟩ := Access.write.inj (command_eq_some.mp hw)
    simp at h
  simp only [State.accept, command]

/-- R60: once the block has been reset, a read is answered and changes its port alone. -/
theorem State.accept_read (hp : s.power ≠ .unreset) (c : Context) (off : Fin 8) (wd : Width) :
    s.accept c (.read off wd) =
      .served (s.setPort c { s.port c with readData := some (s.readValue off wd) }) :=
  if_neg fun h => hp h.1

/-- OUT shows `out` unless reset is asserted (R58, 70_reset_and_hazards.md R181). -/
theorem State.outValue_of_released (hp : s.power = .released) : s.outValue = s.block.out := by
  rw [State.outValue, hp]

theorem State.readValue_out (s : State) (wd : Width) : s.readValue 4 wd = s.outValue.setWidth 32 := rfl

/-- R58, R59, 92_eei_decisions.md D29: a read that lies in the window and is not at OUT's offset returns 0. -/
theorem State.readValue_other {off : Fin 8} {wd : Width} (ho : off ≠ 4) (hw : off.val + wd.bytes ≤ 8) (s : State) :
    s.readValue off wd = 0#32 := by
  rcases s.readValue_cases off wd with ⟨h, _⟩ | ⟨_, _, h⟩ | ⟨h, _⟩
  · exact absurd h ho
  · exact h
  · exact absurd hw (Nat.not_le.mpr h)

/-! ### Host addresses -/

/-- R58, R61: outside the 8 bytes at `HSA_BASE` there is no offset. -/
theorem windowOffset_outside {addr : Nat} (h : addr < Config.hsaBase ∨ Config.hsaBase + 8 ≤ addr) :
    windowOffset addr = none :=
  dif_neg fun inside => by omega

theorem windowOffset_base_add (off : Fin 8) : windowOffset (Config.hsaBase + off.val) = some off := by
  rw [windowOffset, dif_pos ⟨Nat.le_add_right _ _, Nat.add_lt_add_left off.isLt _⟩]
  simp

/-- R63: an issued access waits behind its context's earlier ones. -/
theorem State.enqueue_pending (s : State) (c : Context) (a : Access) :
    ((s.enqueue c a).port c).pending = (s.port c).pending ++ [a] := by
  rw [State.enqueue, State.setPort_port]

theorem State.enqueue_block (s : State) (c : Context) (a : Access) : (s.enqueue c a).block = s.block :=
  s.setPort_block c _

theorem State.hostAccess_outside {addr : Nat} (h : windowOffset addr = none) (s : State) (c : Context) (wd : Width)
    (d : Word) : s.hostWrite c addr wd d = s ∧ s.hostRead c addr wd = s := by
  simp only [State.hostWrite, State.hostRead, h, and_self]

theorem State.hostWrite_inside {addr : Nat} {off : Fin 8} (h : windowOffset addr = some off) (s : State) (c : Context)
    (wd : Width) (d : Word) : s.hostWrite c addr wd d = s.enqueue c (.write off wd d) := by
  rw [State.hostWrite, h]

theorem State.hostRead_inside {addr : Nat} {off : Fin 8} (h : windowOffset addr = some off) (s : State) (c : Context)
    (wd : Width) : s.hostRead c addr wd = s.enqueue c (.read off wd) := by
  rw [State.hostRead, h]

end Rules

/-! ### The obligations -/

/-- Settles O50: the step answers the read with `readValue`, and the value is that of the read's place. -/
theorem readsReturnOutAndChangeNothing : Obligations.ReadsReturnOutAndChangeNothing := by
  intro s c off wd rest hp hg hpend
  have released : (s.popPort c rest).power = .released := by rw [State.popPort_power, hp]
  have accepted := State.accept_read (s := s.popPort c rest) (by rw [released]; decide) c off wd
  refine ⟨_, (s.popPort c rest).readValue off wd, ?_, rfl, ?_, ?_, fun ho hw => State.readValue_other ho hw _⟩
  · rw [step, fetch_of_granted_context hg hpend, accepted, State.popPort_port]
  · rw [State.setPort_block, State.popPort_block]
  · rintro rfl
    rw [State.readValue_out, State.outValue_of_released released, State.popPort_block,
      BitVec.toNat_setWidth_of_le (by decide)]

/-- Settles O51: such a write's acceptance is the state with it taken off its list. -/
theorem otherWritesAreIgnored : Obligations.OtherWritesAreIgnored := by
  intro s c off wd d rest hg hp other
  rw [step, fetch_of_granted_context hg hp, State.accept_other_write other]

/-- Settles O53: the grant is a pick among the agents with something pending, and the step follows the acceptance of
the granted agent's oldest item. -/
theorem everyInterleavingIsAdmitted : Obligations.EveryInterleavingIsAdmitted := by
  refine ⟨fun l g => mem_iff_exists_pickAgent, fun s g => ?_, fun s => ⟨rfl, pickAgent_eq_none, step_of_granted_none⟩,
    fun s e rest hg hp => step_of_granted_platform hg hp, fun s c a rest hg hp => ?_⟩
  · cases g with
    | context c => exact mem_candidates_context
    | platform => exact mem_candidates_platform
  · have fetched := fetch_of_granted_context hg hp
    refine ⟨fun u h => ?_, fun w u h => ?_, fun r h => ?_, State.accept_ne_wait _ c a⟩ <;> rw [step, fetched, h]

/-- Settles O40: the step runs the word's command, the encoded word decodes to its command, and a single command
issued by the frame context is granted. -/
theorem stepRunsTheDecodedCommand : Obligations.StepRunsTheDecodedCommand := by
  refine ⟨fun s c w rest hp hg hpend => step_of_commandWrite hp hg hpend,
    fun s i c rest hi hp hg hpend => ?_, fun s nbits w => ?_⟩
  · rw [step_of_commandWrite hp hg hpend, decode_encode hi]
  · exact step_of_commandWrite rfl (s.withCommand_granted _) rfl

/-- Settles O52: an address has an offset exactly when it lies in the window, and only one that has is queued. -/
theorem onlyWindowAccessesReachTheBlock : Obligations.OnlyWindowAccessesReachTheBlock := by
  intro s c addr wd d
  have someBytes : 0 < wd.bytes := by cases wd <;> decide
  refine ⟨fun outside => ?_, fun below _ => ?_, fun off inside => ?_⟩
  · exact s.hostAccess_outside (windowOffset_outside (by omega)) c wd d
  · exact s.hostAccess_outside (windowOffset_outside (.inl below)) c wd d
  · have place : windowOffset addr = some off := by rw [inside, windowOffset_base_add]
    rw [State.hostWrite_inside place, State.hostRead_inside place]
    exact ⟨s.enqueue_pending c _, s.enqueue_pending c _, s.enqueue_block c _, s.enqueue_block c _⟩

end Sys2Proof.Machine
end

section
/-!
The command encoding (spec 30_encoding.md R70 to R76, R80 to R82): a word as the concatenation of its fields, the
encoder and the opcode table in terms of the fields, and what the reserved bits, the assembler and the API make of it.
-/
namespace Sys2Proof.Machine

/-! ### A word is the concatenation of its fields -/

/-- Format N (R70). -/
theorem word_eq_formatN (w : Word) : w = fieldOp w ++ w.extractLsb' 0 28 :=
  (BitVec.extractLsb'_append_extractLsb' (w := 4) (len := 28)).symm

/-- Format V (R70). -/
theorem word_eq_formatV (w : Word) : w = fieldOp w ++ w.extractLsb' 8 20 ++ fieldLevel w :=
  calc w
    _ = w.extractLsb' 8 24 ++ fieldLevel w := (BitVec.extractLsb'_append_extractLsb' (w := 24) (len := 8)).symm
    _ = fieldOp w ++ w.extractLsb' 8 20 ++ fieldLevel w :=
      congrArg (· ++ fieldLevel w) (BitVec.extractLsb'_append_extractLsb'_eq_extractLsb' (start₂ := 28) (start₁ := 8)
        (len₁ := 20) rfl).symm

/-- The opcode and SFX fields, which the opcode table tests (R74). -/
theorem word_eq_op_sfx (w : Word) : w = fieldOp w ++ w.extractLsb' 16 12 ++ fieldSfx w :=
  calc w
    _ = w.extractLsb' 16 16 ++ fieldSfx w := (BitVec.extractLsb'_append_extractLsb' (w := 16) (len := 16)).symm
    _ = fieldOp w ++ w.extractLsb' 16 12 ++ fieldSfx w :=
      congrArg (· ++ fieldSfx w) (BitVec.extractLsb'_append_extractLsb'_eq_extractLsb' (start₂ := 28) (start₁ := 16)
        (len₁ := 12) rfl).symm

/-- Format T (R70). -/
theorem word_eq_formatT (w : Word) : w = fieldOp w ++ w.extractLsb' 24 4 ++ fieldCh w ++ fieldSfx w :=
  calc w
    _ = w.extractLsb' 16 16 ++ fieldSfx w := (BitVec.extractLsb'_append_extractLsb' (w := 16) (len := 16)).symm
    _ = w.extractLsb' 24 8 ++ fieldCh w ++ fieldSfx w :=
      congrArg (· ++ fieldSfx w) (BitVec.extractLsb'_append_extractLsb'_eq_extractLsb' (start₂ := 24) (start₁ := 16)
        (len₁ := 8) rfl).symm
    _ = fieldOp w ++ w.extractLsb' 24 4 ++ fieldCh w ++ fieldSfx w :=
      congrArg (· ++ fieldCh w ++ fieldSfx w) (BitVec.extractLsb'_append_extractLsb'_eq_extractLsb' (start₂ := 28)
        (start₁ := 24) (len₁ := 4) rfl).symm

theorem encodeFormatT_eq_append (ch : BitVec 8) (sfx : BitVec 16) :
    encodeFormatT ch sfx = 1#4 ++ 0#4 ++ ch ++ sfx :=
  calc encodeFormatT ch sfx
    _ = BitVec.setWidth 32 (16#8 ++ ch ++ sfx) := by
      rw [BitVec.setWidth_append_append_eq_shiftLeft_setWidth_or]; rfl
    _ = 1#4 ++ 0#4 ++ ch ++ sfx := BitVec.setWidth_eq _

theorem encode_setvol_eq_append (level : BitVec 8) : encode (.setvol level) = 4#4 ++ 0#20 ++ level :=
  calc encode (.setvol level)
    _ = BitVec.setWidth 32 (0x400000#24 ++ level) := by
      rw [BitVec.setWidth_append_eq_shiftLeft_setWidth_or]; rfl
    _ = 4#4 ++ 0#20 ++ level := BitVec.setWidth_eq _

theorem opcodeWord_eq_append (op : BitVec 4) : op.setWidth 32 <<< 28 = op ++ 0#28 :=
  calc op.setWidth 32 <<< 28
    _ = BitVec.setWidth 32 (op ++ 0#28) := by
      rw [BitVec.setWidth_append_eq_shiftLeft_setWidth_or]; exact BitVec.or_zero.symm
    _ = op ++ 0#28 := BitVec.setWidth_eq _

/-! ### Clearing the reserved bits -/

theorem reservedBits_of_formatT {w : Word} (h : fieldOp w = 1#4) : reservedBits w = 0x0F000000#32 := if_pos h

theorem reservedBits_of_formatV {w : Word} (h : fieldOp w = 4#4) : reservedBits w = 0x0FFFFF00#32 := by
  rw [reservedBits, h]
  rfl

theorem reservedBits_of_formatN {w : Word} (notT : fieldOp w ≠ 1#4) (notV : fieldOp w ≠ 4#4) :
    reservedBits w = 0x0FFFFFFF#32 := by
  rw [reservedBits, if_neg notT, if_neg notV]

theorem clearReserved_formatT {w : Word} (h : fieldOp w = 1#4) :
    w &&& ~~~(reservedBits w) = encodeFormatT (fieldCh w) (fieldSfx w) :=
  calc w &&& ~~~(reservedBits w)
    _ = (fieldOp w ++ w.extractLsb' 24 4 ++ fieldCh w ++ fieldSfx w) &&&
        (BitVec.allOnes 4 ++ 0#4 ++ BitVec.allOnes 8 ++ BitVec.allOnes 16) :=
      congrArg₂ (· &&& ·) (word_eq_formatT w) (by rw [reservedBits_of_formatT h]; rfl)
    _ = 1#4 ++ 0#4 ++ fieldCh w ++ fieldSfx w := by
      simp only [BitVec.and_append, BitVec.and_allOnes, BitVec.and_zero, h]
    _ = encodeFormatT (fieldCh w) (fieldSfx w) := (encodeFormatT_eq_append _ _).symm

theorem clearReserved_formatV {w : Word} (h : fieldOp w = 4#4) :
    w &&& ~~~(reservedBits w) = encode (.setvol (fieldLevel w)) :=
  calc w &&& ~~~(reservedBits w)
    _ = (fieldOp w ++ w.extractLsb' 8 20 ++ fieldLevel w) &&& (BitVec.allOnes 4 ++ 0#20 ++ BitVec.allOnes 8) :=
      congrArg₂ (· &&& ·) (word_eq_formatV w) (by rw [reservedBits_of_formatV h]; rfl)
    _ = 4#4 ++ 0#20 ++ fieldLevel w := by
      simp only [BitVec.and_append, BitVec.and_allOnes, BitVec.and_zero, h]
    _ = encode (.setvol (fieldLevel w)) := (encode_setvol_eq_append _).symm

theorem clearReserved_formatN {w : Word} (notT : fieldOp w ≠ 1#4) (notV : fieldOp w ≠ 4#4) :
    w &&& ~~~(reservedBits w) = (fieldOp w).setWidth 32 <<< 28 :=
  calc w &&& ~~~(reservedBits w)
    _ = (fieldOp w ++ w.extractLsb' 0 28) &&& (BitVec.allOnes 4 ++ 0#28) :=
      congrArg₂ (· &&& ·) (word_eq_formatN w) (by rw [reservedBits_of_formatN notT notV]; rfl)
    _ = fieldOp w ++ 0#28 := by simp only [BitVec.and_append, BitVec.and_allOnes, BitVec.and_zero]
    _ = (fieldOp w).setWidth 32 <<< 28 := (opcodeWord_eq_append _).symm

/-! ### Encoding a decoded word -/

theorem decode_of_formatT {w : Word} (h : fieldOp w = 1#4) : decode w = decodeFormatT w := by
  rw [decode, h]
  rfl

theorem decode_of_formatV {w : Word} (h : fieldOp w = 4#4) : decode w = .setvol (fieldLevel w) := by
  rw [decode, h]
  rfl

/-- R75: a command of format N is that of its opcode alone. -/
theorem decode_of_formatN {w : Word} (notT : fieldOp w ≠ 1#4) (notV : fieldOp w ≠ 4#4) :
    decode w = decode ((fieldOp w).setWidth 32 <<< 28) := by
  rw [decode, decode, fieldOp_reserved]
  split
  case h_2 one => exact absurd (BitVec.eq_of_toNat_eq one) notT
  case h_5 four => exact absurd (BitVec.eq_of_toNat_eq four) notV
  all_goals rfl

theorem rowIndex_decode_opcodeWord {w : Word} (notT : fieldOp w ≠ 1#4) :
    (decode ((fieldOp w).setWidth 32 <<< 28)).rowIndex = (decode w).rowIndex := by
  by_cases opV : fieldOp w = 4#4
  · have row : (decode w).rowIndex = 7 := by rw [decode_of_formatV opV, Instr.rowIndex]
    rw [row, opV]
    rfl
  · exact congrArg Instr.rowIndex (decode_of_formatN notT opV).symm

/-- A TRIGGER's 15-bit index is its SFX field, whose top bit is 0 (R71, R74). -/
theorem setWidth_setWidth_of_msb {sfx : BitVec 16} (h : sfx.msb = false) : (sfx.setWidth 15).setWidth 16 = sfx := by
  have below : sfx.toNat < 2 ^ 15 := by simpa [BitVec.msb_eq_decide] using h
  apply BitVec.eq_of_toNat_eq
  simp only [BitVec.toNat_setWidth]
  omega

theorem wellFormed_and_encode_decodeFormatT (w : Word) :
    (decodeFormatT w).wellFormed = true ∧ encode (decodeFormatT w) = encodeFormatT (fieldCh w) (fieldSfx w) := by
  unfold decodeFormatT
  split_ifs with stop stopall index
  · exact ⟨rfl, by rw [stop]; rfl⟩
  · exact ⟨rfl, by rw [stopall]; rfl⟩
  · exact ⟨rfl, by rw [encode, setWidth_setWidth_of_msb index]⟩
  · have low : 0x8000 ≤ (fieldSfx w).toNat := by simpa [BitVec.msb_eq_decide] using index
    have high : (fieldSfx w).toNat ≤ 0xFFFD := by bv_omega
    exact ⟨by simp [Instr.wellFormed, low, high], rfl⟩

theorem wellFormed_and_encode_decode_opcodeWord : ∀ op : BitVec 4, op ≠ 1#4 → op ≠ 4#4 →
    (decode (op.setWidth 32 <<< 28)).wellFormed = true ∧
      encode (decode (op.setWidth 32 <<< 28)) = op.setWidth 32 <<< 28 := by
  decide

/-- R75, R76: the three formats one by one. -/
theorem wellFormed_and_encode_decode (w : Word) :
    (decode w).wellFormed = true ∧ encode (decode w) = w &&& ~~~(reservedBits w) := by
  by_cases opT : fieldOp w = 1#4
  · rw [decode_of_formatT opT, clearReserved_formatT opT]
    exact wellFormed_and_encode_decodeFormatT w
  · by_cases opV : fieldOp w = 4#4
    · rw [decode_of_formatV opV, clearReserved_formatV opV]
      exact ⟨rfl, rfl⟩
    · rw [decode_of_formatN opT opV, clearReserved_formatN opT opV]
      exact wellFormed_and_encode_decode_opcodeWord _ opT opV

/-! ### Reserved bits are ignored -/

/-- The word `w` with its reserved bits as in `v`. -/
def withReservedOf (w v : Word) : Word := (w &&& ~~~(reservedBits w)) ||| (v &&& reservedBits w)

/-- No format reserves a bit of the opcode (R70). -/
theorem fieldOp_withReservedOf (w v : Word) : fieldOp (withReservedOf w v) = fieldOp w := by
  have opBits : (reservedBits w).extractLsb' 28 4 = 0#4 ∧ (~~~(reservedBits w)).extractLsb' 28 4 = .allOnes 4 := by
    unfold reservedBits
    split_ifs <;> exact ⟨rfl, rfl⟩
  obtain ⟨reserved, kept⟩ := opBits
  rw [withReservedOf, fieldOp, BitVec.extractLsb'_or, BitVec.extractLsb'_and, BitVec.extractLsb'_and, reserved, kept,
    BitVec.and_allOnes, BitVec.and_zero, BitVec.or_zero, ← fieldOp]

theorem reservedBits_withReservedOf (w v : Word) : reservedBits (withReservedOf w v) = reservedBits w := by
  rw [reservedBits, fieldOp_withReservedOf, ← reservedBits]

theorem clearReserved_withReservedOf (w v : Word) :
    withReservedOf w v &&& ~~~(reservedBits (withReservedOf w v)) = w &&& ~~~(reservedBits w) := by
  rw [reservedBits_withReservedOf, withReservedOf, BitVec.and_or_distrib_right, BitVec.and_assoc, BitVec.and_self,
    BitVec.and_assoc, BitVec.and_not_self]
  simp

/-- A word's command is that of the word with its reserved bits zero (R75). -/
theorem decode_clearReserved (w : Word) : decode (w &&& ~~~(reservedBits w)) = decode w := by
  obtain ⟨wellFormed, encoded⟩ := wellFormed_and_encode_decode w
  rw [← encoded, decode_encode wellFormed]

theorem decode_withReservedOf (w v : Word) : decode (withReservedOf w v) = decode w :=
  calc decode (withReservedOf w v)
    _ = decode (withReservedOf w v &&& ~~~(reservedBits (withReservedOf w v))) := (decode_clearReserved _).symm
    _ = decode (w &&& ~~~(reservedBits w)) := congrArg decode (clearReserved_withReservedOf w v)
    _ = decode w := decode_clearReserved w

/-- The word of a step's command enters the step through its decoding alone. -/
theorem step_withCommand_congr {u w : Word} (h : decode u = decode w) (s : State) :
    step (s.withCommand u) = step (s.withCommand w) := by
  rw [step_of_commandWrite rfl (s.withCommand_granted u) rfl, step_of_commandWrite rfl (s.withCommand_granted w) rfl, h]
  rfl

/-! ### The opcode table -/

theorem fieldOp_append (op : BitVec 4) (mid : BitVec 12) (sfx : BitVec 16) : fieldOp (op ++ mid ++ sfx) = op :=
  calc fieldOp (op ++ mid ++ sfx)
    _ = (op ++ mid).extractLsb' 12 4 := BitVec.extractLsb'_append_eq_of_le (by decide)
    _ = op := BitVec.extractLsb'_append_eq_left

theorem fieldSfx_append (op : BitVec 4) (mid : BitVec 12) (sfx : BitVec 16) : fieldSfx (op ++ mid ++ sfx) = sfx :=
  BitVec.extractLsb'_append_eq_right

/-- A row that tests the opcode and SFX under a mask each. -/
def rowOfFields (mnemonic : String) (op opMask : BitVec 4) (sfx sfxMask : BitVec 16) : Row :=
  ⟨mnemonic, op ++ 0#12 ++ sfx, opMask ++ 0#12 ++ sfxMask⟩

theorem rowOfFields_matchesWord (mnemonic : String) (op opMask : BitVec 4) (sfx sfxMask : BitVec 16) (w : Word) :
    (rowOfFields mnemonic op opMask sfx sfxMask).matchesWord w =
      decide (fieldOp w &&& opMask = op ∧ fieldSfx w &&& sfxMask = sfx) := by
  have masked : w &&& (opMask ++ 0#12 ++ sfxMask) = (fieldOp w &&& opMask) ++ 0#12 ++ (fieldSfx w &&& sfxMask) :=
    calc w &&& (opMask ++ 0#12 ++ sfxMask)
      _ = (fieldOp w ++ w.extractLsb' 16 12 ++ fieldSfx w) &&& (opMask ++ 0#12 ++ sfxMask) :=
        congrArg (· &&& _) (word_eq_op_sfx w)
      _ = (fieldOp w &&& opMask) ++ 0#12 ++ (fieldSfx w &&& sfxMask) := by
        simp only [BitVec.and_append, BitVec.and_zero]
  rw [Row.matchesWord, rowOfFields, masked, Bool.eq_iff_iff, beq_iff_eq, decide_eq_true_iff]
  refine ⟨fun h => ⟨?_, ?_⟩, fun ⟨hop, hsfx⟩ => by rw [hop, hsfx]⟩
  · simpa only [fieldOp_append] using congrArg fieldOp h
  · simpa only [fieldSfx_append] using congrArg fieldSfx h

theorem opcodeTable_eq_rowsOfFields : opcodeTable =
    [ rowOfFields "NOP" 0#4 (.allOnes 4) 0#16 0#16,
      rowOfFields "STOP" 1#4 (.allOnes 4) 0xFFFF#16 0xFFFF#16,
      rowOfFields "STOPALL" 1#4 (.allOnes 4) 0xFFFE#16 0xFFFF#16,
      rowOfFields "TRIGGER" 1#4 (.allOnes 4) 0#16 0x8000#16,
      rowOfFields "RSVD_TRIG" 1#4 (.allOnes 4) 0x8000#16 0x8000#16,
      rowOfFields "TICK" 2#4 (.allOnes 4) 0#16 0#16,
      rowOfFields "SAMPLE" 3#4 (.allOnes 4) 0#16 0#16,
      rowOfFields "SETVOL" 4#4 (.allOnes 4) 0#16 0#16,
      rowOfFields "RSVD_OP5" 5#4 (.allOnes 4) 0#16 0#16,
      rowOfFields "RSVD_OP6_7" 6#4 0xE#4 0#16 0#16,
      rowOfFields "RSVD_OP8_F" 8#4 0x8#4 0#16 0#16 ] := rfl

theorem sfx_and_allBits (sfx : BitVec 16) : sfx &&& 0xFFFF#16 = sfx := BitVec.and_allOnes

theorem sfx_and_topBit (sfx : BitVec 16) : sfx &&& 0x8000#16 = if sfx.msb then 0x8000#16 else 0#16 := by
  rw [BitVec.msb_eq_getLsbD_last]
  exact BitVec.and_twoPow sfx 15

/-- In format T the opcode matches the rows STOP, STOPALL, TRIGGER and RSVD_TRIG, and the SFX field decides. -/
theorem firstRow_of_formatT {w : Word} (h : fieldOp w = 1#4) :
    opcodeTable.findIdx? (fun r => r.matchesWord w) = some (decodeFormatT w).rowIndex := by
  rw [decodeFormatT]
  split_ifs with stop stopall index <;>
    simp [opcodeTable_eq_rowsOfFields, List.findIdx?_cons, rowOfFields_matchesWord, sfx_and_allBits, sfx_and_topBit,
      Instr.rowIndex, *]

/-- Outside format T a row tests the opcode alone, so one check per opcode is enough. -/
theorem firstRow_of_not_formatT {w : Word} (h : fieldOp w ≠ 1#4) :
    opcodeTable.findIdx? (fun r => r.matchesWord w) = some (decode ((fieldOp w).setWidth 32 <<< 28)).rowIndex := by
  simp only [opcodeTable_eq_rowsOfFields, List.findIdx?_cons, List.findIdx?_nil, rowOfFields_matchesWord,
    BitVec.and_allOnes, BitVec.and_zero, and_true, h, false_and]
  generalize fieldOp w = op at h
  revert op
  decide

/-! ### The assembler and the API -/

theorem toNat_ofInt_of_bounds {n : Nat} {v : Int} (low : 0 ≤ v) (high : v < 2 ^ n) :
    ((BitVec.ofInt n v).toNat : Int) = v := by
  rw [BitVec.toNat_ofInt, Int.natCast_pow, Int.emod_eq_of_lt low (by exact_mod_cast high), Int.toNat_of_nonneg low]

theorem inRange_eq_true {v hi : Int} : inRange v hi = true ↔ 0 ≤ v ∧ v ≤ hi := by
  simp [inRange]

theorem inRange_eq_false {v hi : Int} : inRange v hi = false ↔ v < 0 ∨ hi < v := by
  rw [← Bool.not_eq_true, inRange_eq_true]
  omega

theorem assemble_trigger_error {sfx ch : Int} (h : ch < 0 ∨ 255 < ch ∨ sfx < -2 ∨ 32767 < sfx) :
    assemble (.trigger sfx ch) = .error .operandRange := by
  have outside : inRange ch 255 = false ∨ sfx ≠ -1 ∧ sfx ≠ -2 ∧ inRange sfx 32767 = false := by
    simp only [inRange_eq_false]
    omega
  rw [assemble]
  rcases outside with hch | ⟨notStop, notStopall, hsfx⟩
  · rw [if_pos hch]
  · rw [if_neg notStop, if_neg notStopall, if_pos hsfx, ite_self]

section InRange
variable {sfx ch level : Int}

theorem assemble_trigger (hs : 0 ≤ sfx ∧ sfx ≤ 32767) (hc : 0 ≤ ch ∧ ch ≤ 255) :
    assemble (.trigger sfx ch) = .ok (encode (.trigger (BitVec.ofInt 8 ch) (BitVec.ofInt 15 sfx))) := by
  rw [assemble, if_neg (by simp [inRange_eq_true.mpr hc]), if_neg (by omega), if_neg (by omega),
    if_neg (by simp [inRange_eq_true.mpr hs])]

theorem assemble_stop (hc : 0 ≤ ch ∧ ch ≤ 255) : assemble (.stop ch) = .ok (encode (.stop (BitVec.ofInt 8 ch))) := by
  rw [assemble, if_neg (by simp [inRange_eq_true.mpr hc])]

theorem assemble_trigger_stop (hc : 0 ≤ ch ∧ ch ≤ 255) : assemble (.trigger (-1) ch) = assemble (.stop ch) := by
  rw [assemble_stop hc, assemble, if_neg (by simp [inRange_eq_true.mpr hc]), if_pos rfl]

theorem assemble_trigger_stopall (hc : 0 ≤ ch ∧ ch ≤ 255) :
    assemble (.trigger (-2) ch) = .ok (encode (.stopall (BitVec.ofInt 8 ch))) := by
  rw [assemble, if_neg (by simp [inRange_eq_true.mpr hc]), if_neg (by decide), if_pos rfl]

theorem assemble_setvol (hl : 0 ≤ level ∧ level ≤ 255) :
    assemble (.setvol level) = .ok (encode (.setvol (BitVec.ofInt 8 level))) := by
  rw [assemble, if_neg (by simp [inRange_eq_true.mpr hl])]

end InRange

/-- An assembled word decodes to the command the assembler encoded. -/
theorem decode_of_assembled {l : AsmLine} {i : Instr} {w : Word} (assembled : assemble l = .ok (encode i))
    (word : encode i = w) (h : i.wellFormed = true) : assemble l = .ok w ∧ decode w = i := by
  subst word
  exact ⟨assembled, decode_encode h⟩

/-- R115: TRIGGER with an index out of range leaves the block as it is. -/
theorem Block.trigger_out_of_range {ch : BitVec 8} {sfx : BitVec 15} {r : Roms}
    (h : 4 ≤ ch.toNat ∨ r.numSfx ≤ sfx.toNat) (b : Block) : b.trigger ch sfx r = b := by
  rw [Block.trigger]
  split
  · rfl
  next i hi =>
    rw [channelIndex_eq_some] at hi
    exact if_neg (by omega)

theorem exec_trigger_out_of_range {ch : BitVec 8} {sfx : BitVec 15} {s : State}
    (h : 4 ≤ ch.toNat ∨ s.roms.numSfx ≤ sfx.toNat) : exec (.trigger ch sfx) s = .next s := by
  rw [exec_eq, blockAfter, Block.trigger_out_of_range h, State.withBlock_self]

/-- R81: an API trigger whose operands the encoding can hold is one TRIGGER. -/
theorem ApiCall.commands_trigger {sfx ch : Int} (hs : 0 ≤ sfx ∧ sfx ≤ 32767) (hc : 0 ≤ ch ∧ ch ≤ 255) :
    (ApiCall.trigger sfx ch).commands = [.trigger (BitVec.ofInt 8 ch) (BitVec.ofInt 15 sfx)] := by
  rw [ApiCall.commands, if_neg (by omega), if_pos hc, if_neg (by omega), if_pos hs]

/-- R81 with log 19: any other, the sentinels apart, sends nothing. -/
theorem ApiCall.commands_trigger_eq_nil {sfx ch : Int} (notStop : sfx ≠ -1) (notStopall : sfx ≠ -2)
    (h : ¬((0 ≤ sfx ∧ sfx ≤ 32767) ∧ 0 ≤ ch ∧ ch ≤ 255)) : (ApiCall.trigger sfx ch).commands = [] := by
  rw [ApiCall.commands, if_neg notStopall]
  by_cases hc : 0 ≤ ch ∧ ch ≤ 255
  · rw [if_pos hc, if_neg notStop, if_neg fun hs => h ⟨hs, hc⟩]
  · rw [if_neg hc]

theorem execAll_singleton (i : Instr) (s : State) : execAll [i] s = exec i s := by
  rw [execAll_cons, execAll_nil, exec_eq]

/-! ### The obligations -/

/-- Settles O2: `decode_encode`, whose cases are the constructors. -/
theorem decodeOfEncodeIsTheCommand : Obligations.DecodeOfEncodeIsTheCommand := fun _ => decode_encode

/-- Settles O3: `wellFormed_and_encode_decode`, whose cases are the formats. -/
theorem encodeOfDecodeClearsReservedBits : Obligations.EncodeOfDecodeClearsReservedBits :=
  wellFormed_and_encode_decode

/-- Settles O4: in format T by the SFX field, in the other formats by the opcode. -/
theorem decodeIsTheFirstMatchingRow : Obligations.DecodeIsTheFirstMatchingRow := by
  intro w
  by_cases opT : fieldOp w = 1#4
  · rw [firstRow_of_formatT opT, decode_of_formatT opT]
  · rw [firstRow_of_not_formatT opT, rowIndex_decode_opcodeWord opT]

/-- Settles O5: the two words agree once their reserved bits are cleared, so they decode to one command. -/
theorem reservedWordBitsHaveNoEffect : Obligations.ReservedWordBitsHaveNoEffect := by
  refine ⟨fun w => ⟨reservedBits_of_formatT, reservedBits_of_formatV, reservedBits_of_formatN⟩, fun w v s => ?_⟩
  exact ⟨decode_withReservedOf w v, step_withCommand_congr (decode_withReservedOf w v) s⟩

/-- Settles O6: the assembled word is an encoded command, which `decode_encode` gives back with its operands. -/
theorem assembledOperandsAreTheCommandsOperands : Obligations.AssembledOperandsAreTheCommandsOperands := by
  have byteOperand {v : Int} (low : 0 ≤ v) (high : v ≤ 255) : ((BitVec.ofInt 8 v).toNat : Int) = v :=
    toNat_ofInt_of_bounds low (by omega)
  refine ⟨fun sfx ch sfxLow sfxHigh low high => ?_, fun ch low high => ⟨?_, ?_⟩, fun level low high => ?_,
    fun sfx ch => assemble_trigger_error, fun v outside => ?_⟩
  · exact ⟨_, _, _, assemble_trigger ⟨sfxLow, sfxHigh⟩ ⟨low, high⟩, decode_encode rfl, byteOperand low high,
      toNat_ofInt_of_bounds sfxLow (by omega)⟩
  · have stop := assemble_stop ⟨low, high⟩
    exact ⟨_, _, stop, (assemble_trigger_stop ⟨low, high⟩).trans stop, decode_encode rfl, byteOperand low high⟩
  · exact ⟨_, _, assemble_trigger_stopall ⟨low, high⟩, decode_encode rfl, byteOperand low high⟩
  · exact ⟨_, _, assemble_setvol ⟨low, high⟩, decode_encode rfl, byteOperand low high⟩
  · exact ⟨if_pos (inRange_eq_false.mpr outside), if_pos (inRange_eq_false.mpr outside)⟩

/-- Settles O7: an index out of range either sends nothing or is one the block ignores. -/
theorem apiTriggerActsOnlyInRange : Obligations.ApiTriggerActsOnlyInRange := by
  intro s sfx ch romBound notStop notStopall
  refine ⟨fun ⟨sfxLow, sfxHigh, chLow, chHigh⟩ => ?_, fun outside => ?_⟩
  · rw [ApiCall.commands_trigger ⟨sfxLow, by omega⟩ ⟨chLow, by omega⟩, execAll_singleton]
  · by_cases encodable : (0 ≤ sfx ∧ sfx ≤ 32767) ∧ 0 ≤ ch ∧ ch ≤ 255
    · obtain ⟨hs, hc⟩ := encodable
      have sfxValue : ((BitVec.ofInt 15 sfx).toNat : Int) = sfx := toNat_ofInt_of_bounds hs.1 (by omega)
      have chValue : ((BitVec.ofInt 8 ch).toNat : Int) = ch := toNat_ofInt_of_bounds hc.1 (by omega)
      rw [ApiCall.commands_trigger hs hc, execAll_singleton, exec_trigger_out_of_range (by omega)]
    · rw [ApiCall.commands_trigger_eq_nil notStop notStopall encodable, execAll_nil]

/-- Settles O1: each line's word is its command encoded, so `decode_encode` gives the command back. -/
theorem exampleWordsAssembleAndDecode : Obligations.ExampleWordsAssembleAndDecode :=
  ⟨decode_of_assembled rfl rfl rfl, decode_of_assembled rfl rfl rfl, decode_of_assembled rfl rfl rfl,
   decode_of_assembled rfl rfl rfl, decode_of_assembled rfl rfl rfl, decode_of_assembled rfl rfl rfl,
   decode_of_assembled rfl rfl rfl, decode_of_assembled rfl rfl rfl, decode_of_assembled rfl rfl rfl,
   decode_of_assembled rfl rfl rfl⟩

end Sys2Proof.Machine
end

section
/-!
The waveform generators (spec 40_waveforms.md R90 to R98, R100): each as arithmetic on the phase, and each a function of the
phase's top nine bits alone.
-/
namespace Sys2Proof.Machine

/-- The phase's top bit is its half of the cycle. -/
theorem getLsbD_top (p : BitVec 16) : p.getLsbD 15 = decide (32768 ≤ p.toNat) := by
  have hp := p.isLt
  rw [BitVec.getLsbD, Nat.testBit_eq_decide_div_mod_eq, decide_eq_decide]
  omega

/-! ### Each generator as arithmetic on the phase -/

/-- R91: the division form, which 8 bits hold. -/
theorem tri_toNat (p : BitVec 16) :
    (tri p).toNat = if p.toNat < 32768 then p.toNat / 128 else (65535 - p.toNat) / 128 := by
  have hp := p.isLt
  rw [tri]
  split_ifs with rising
  · rw [BitVec.toNat_ofNat]
    omega
  · rw [BitVec.toNat_ofNat]
    omega

/-- R91: the bit form. The falling half complements the eight bits below the top one. -/
theorem tri_eq_bits (p : BitVec 16) :
    tri p = if p.getLsbD 15 then p.extractLsb' 7 8 ^^^ 0xFF#8 else p.extractLsb' 7 8 := by
  have hp := p.isLt
  have complement (x : BitVec 8) : (x ^^^ 0xFF#8).toNat = 255 - x.toNat := by
    rw [show 0xFF#8 = BitVec.allOnes 8 from rfl, BitVec.xor_allOnes, BitVec.toNat_not]
  apply BitVec.eq_of_toNat_eq
  rw [tri_toNat, getLsbD_top]
  by_cases falling : 32768 ≤ p.toNat
  · rw [if_neg (by omega), if_pos (by simpa using falling), complement, BitVec.extractLsb'_toNat, Nat.shiftRight_eq_div_pow]
    omega
  · rw [if_pos (by omega), if_neg (by simpa using falling), BitVec.extractLsb'_toNat, Nat.shiftRight_eq_div_pow]
    omega

/-- R91: the second half of the cycle mirrors the first. -/
theorem tri_symm (p : BitVec 16) : tri p = tri (65535#16 - p) := by
  have hp := p.isLt
  have mirror : (65535#16 - p).toNat = 65535 - p.toNat := by
    rw [BitVec.toNat_sub, BitVec.toNat_ofNat]
    omega
  apply BitVec.eq_of_toNat_eq
  rw [tri_toNat, tri_toNat, mirror]
  by_cases rising : p.toNat < 32768
  · rw [if_pos rising, if_neg (by omega)]
    omega
  · rw [if_neg rising, if_pos (by omega)]

/-- R93. -/
theorem saw_toNat (p : BitVec 16) : (saw p).toNat = p.toNat / 256 := by
  have hp := p.isLt
  rw [saw, BitVec.extractLsb'_toNat, Nat.shiftRight_eq_div_pow]
  omega

/-- R94: high over the first half of the cycle. -/
theorem squareWave_eq (p : BitVec 16) : squareWave p = if p.toNat < 32768 then 255#8 else 0#8 := by
  rw [squareWave, saw_toNat]
  exact if_congr (by omega) rfl rfl

theorem squareWave_eq_topBit (p : BitVec 16) : squareWave p = if p.getLsbD 15 then 0#8 else 255#8 := by
  rw [squareWave_eq, getLsbD_top, ← ite_not]
  exact if_congr (by simp) rfl rfl

/-- R95: high over the first quarter of the cycle. -/
theorem pulse_eq_topBits (p : BitVec 16) : pulse p = if p.extractLsb' 14 2 = 0#2 then 255#8 else 0#8 := by
  have hp := p.isLt
  have quarter : (saw p).toNat < 64 ↔ p.extractLsb' 14 2 = 0#2 := by
    rw [← BitVec.toNat_inj, saw_toNat, BitVec.extractLsb'_toNat, Nat.shiftRight_eq_div_pow, BitVec.toNat_ofNat]
    omega
  exact if_congr quarter rfl rfl

theorem average_toNat (a b : Byte) : (average a b).toNat = (a.toNat + b.toNat) / 2 := by
  have ha := a.isLt
  have hb := b.isLt
  rw [average, BitVec.toNat_ofNat]
  omega

/-- R96: quarter by quarter, the square at the phase and at twice the phase. -/
theorem organ_eq (p : BitVec 16) :
    organ p = if p.toNat < 0x4000 then 255#8 else if p.toNat < 0xC000 then 127#8 else 0#8 := by
  have hp := p.isLt
  rw [organ, squareWave_eq, squareWave_eq, BitVec.toNat_ofNat]
  rcases (by omega : p.toNat < 0x4000 ∨ 0x4000 ≤ p.toNat ∧ p.toNat < 0x8000 ∨
    0x8000 ≤ p.toNat ∧ p.toNat < 0xC000 ∨ 0xC000 ≤ p.toNat) with first | ⟨low, high⟩ | ⟨low, high⟩ | last
  · rw [if_pos (by omega), if_pos (by omega), if_pos first]
    rfl
  · rw [if_pos (by omega), if_neg (by omega), if_neg (by omega), if_pos (by omega)]
    rfl
  · rw [if_neg (by omega), if_pos (by omega), if_neg (by omega), if_pos high]
    rfl
  · rw [if_neg (by omega), if_neg (by omega), if_neg (by omega), if_neg (by omega)]
    rfl

/-- R98: the phase an eighth of a cycle later is 32 steps of the saw later. -/
theorem phaser_toNat (p : BitVec 16) :
    (phaser p).toNat = (p.toNat / 256 + (p.toNat / 256 + 32) % 256) / 2 := by
  have later : (p + 8192#16).toNat / 256 = (p.toNat / 256 + 32) % 256 := by
    have hp := p.isLt
    rw [BitVec.toNat_add, BitVec.toNat_ofNat]
    omega
  rw [phaser, average_toNat, saw_toNat, saw_toNat, later]

/-! ### The top nine bits decide (R100) -/

section TopBits
variable {p q : BitVec 16} (h : p.toNat / 128 = q.toNat / 128)
include h

theorem tri_congr : tri p = tri q := by
  apply BitVec.eq_of_toNat_eq
  rw [tri_toNat, tri_toNat]
  exact if_ctx_congr (by omega) (fun _ => h) (fun _ => by omega)

theorem saw_congr : saw p = saw q := by
  apply BitVec.eq_of_toNat_eq
  rw [saw_toNat, saw_toNat]
  omega

theorem squareWave_congr : squareWave p = squareWave q := by
  rw [squareWave, saw_congr h, ← squareWave]

theorem pulse_congr : pulse p = pulse q := by
  rw [pulse, saw_congr h, ← pulse]

theorem organ_congr : organ p = organ q := by
  rw [organ_eq, organ_eq]
  exact if_congr (by omega) rfl (if_congr (by omega) rfl rfl)

theorem phaser_congr : phaser p = phaser q := by
  have high : p.toNat / 256 = q.toNat / 256 := by omega
  apply BitVec.eq_of_toNat_eq
  rw [phaser_toNat, phaser_toNat, high]

theorem pureGen_congr (w : Wave) : pureGen w p = pureGen w q := by
  cases w with
  | triangle => exact congrArg some (tri_congr h)
  | tiltedSaw | saw => exact congrArg some (saw_congr h)
  | square => exact congrArg some (squareWave_congr h)
  | pulse => exact congrArg some (pulse_congr h)
  | organ => exact congrArg some (organ_congr h)
  | phaser => exact congrArg some (phaser_congr h)
  | noise => rfl

end TopBits

/-- The phase the waveform ROM's byte is taken at shares the top nine bits. -/
theorem romPhase_div (p : BitVec 16) : (p.extractLsb' 7 9 ++ 0#7).toNat / 128 = p.toNat / 128 := by
  have hp := p.isLt
  have shifted : (p.extractLsb' 7 9 ++ 0#7).toNat = p.toNat / 128 * 128 := by
    rw [BitVec.toNat_append, BitVec.extractLsb'_toNat, Nat.shiftRight_eq_div_pow, BitVec.toNat_ofNat, Nat.zero_mod,
      Nat.or_zero, Nat.shiftLeft_eq]
    omega
  rw [shifted, Nat.mul_div_cancel _ (by decide)]

/-- R100: away from noise the waveform ROM holds what the generator answers. -/
theorem waveRom_eq_gen {w : BitVec 3} (hw : w ≠ 6#3) (p l : BitVec 16) :
    waveRom w (p.extractLsb' 7 9) = some (gen w p l).raw := by
  rw [waveRom, pureGen_congr (romPhase_div p)]
  exact (gen_pure hw p l).2

/-! ### The obligations -/

/-- Settles O33: the two forms by the half of the cycle, the rest from the division form. -/
theorem triangleIsItsBitFormAndSymmetric : Obligations.TriangleIsItsBitFormAndSymmetric :=
  ⟨tri_eq_bits, tri_toNat, tri_symm, fun _ _ => tri_congr, by decide, by decide, by decide, by decide, by decide,
    by decide, by decide⟩

/-- Settles O34: the generators' laws, and an id's generator by `waveOfId`. -/
theorem generatorsFollowTheirLaws : Obligations.GeneratorsFollowTheirLaws := by
  intro p
  refine ⟨saw_toNat p, rfl, squareWave_eq_topBit p, pulse_eq_topBits p, fun first => ?_, fun low high => ?_,
    fun last => ?_, phaser_toNat p, fun l => ⟨rfl, rfl, rfl, rfl, rfl, rfl, rfl⟩⟩
  · rw [organ_eq, if_pos (by omega)]
  · rw [organ_eq, if_neg (by omega), if_pos (by omega)]
  · rw [organ_eq, if_neg (by omega), if_neg (by omega)]

/-- Settles O35: the ROM's phase agrees with `p` on the nine bits the generators depend on. -/
theorem waveformRomHoldsTheGenerators : Obligations.WaveformRomHoldsTheGenerators := by
  intro w p lfsr hw
  exact ⟨waveRom_eq_gen hw p lfsr, (gen_pure hw p lfsr).1⟩

end Sys2Proof.Machine
end

section
/-!
The LFSR (spec 40_waveforms.md R97, R99, R101): one step as arithmetic and as word operations, the length of its period, and
which commands step it. The step is linear over GF(2), and 16 steps are the sum of the taps. Squaring in characteristic 2
carries that over to every power of two, so 16 ^ j steps cost only 5 ^ j.
-/
namespace Sys2Proof.Machine
open Function

/-! ### One step -/

theorem toNat_boolXor (a b : Bool) : (a ^^ b).toNat = (a.toNat + b.toNat) % 2 := by
  cases a <;> cases b <;> rfl

/-- R97: the sum of the four taps, modulo 2. -/
theorem lfsrBit_toNat (l : BitVec 16) :
    (lfsrBit l).toNat = (l.toNat + l.toNat / 4 + l.toNat / 8 + l.toNat / 32) % 2 := by
  have tap (i : Nat) : (l.getLsbD i).toNat = l.toNat / 2 ^ i % 2 := Nat.toNat_testBit l.toNat i
  simp only [lfsrBit, toNat_boolXor, tap]
  omega

/-- R97: the register halves, and the feedback bit enters at the top. -/
theorem lfsrNext_toNat (l : BitVec 16) :
    (lfsrNext l).toNat =
      l.toNat / 2 + (l.toNat + l.toNat / 4 + l.toNat / 8 + l.toNat / 32) % 2 * 32768 := by
  have hl := l.isLt
  rw [lfsrNext, BitVec.toNat_cons', lfsrBit_toNat, BitVec.extractLsb'_toNat, Nat.shiftLeft_eq, Nat.shiftRight_eq_div_pow]
  omega

/-- The step in word operations, which evaluate faster than bit by bit. -/
def lfsrShift (l : BitVec 16) : BitVec 16 :=
  (l >>> 1) ||| ((l ^^^ (l >>> 2) ^^^ (l >>> 3) ^^^ (l >>> 5)) <<< 15)

theorem lfsrShift_eq (l : BitVec 16) : lfsrShift l = lfsrNext l := by
  refine BitVec.eq_of_getLsbD_eq fun i hi => ?_
  rw [getLsbD_lfsrNext, lfsrShift]
  split_ifs with top
  · subst top
    simp [lfsrBit]
  · have low : i < 15 := by omega
    simp [low, Nat.add_comm]

/-! ### The step is linear -/

theorem lfsrBit_xor (a b : BitVec 16) : lfsrBit (a ^^^ b) = (lfsrBit a ^^ lfsrBit b) := by
  simp only [lfsrBit, BitVec.getLsbD_xor, Bool.xor_assoc, Bool.xor_left_comm]

theorem lfsrNext_xor (a b : BitVec 16) : lfsrNext (a ^^^ b) = lfsrNext a ^^^ lfsrNext b := by
  refine BitVec.eq_of_getLsbD_eq fun i _ => ?_
  rw [BitVec.getLsbD_xor, getLsbD_lfsrNext, getLsbD_lfsrNext, getLsbD_lfsrNext]
  split_ifs
  · exact lfsrBit_xor a b
  · exact BitVec.getLsbD_xor

theorem lfsrNext_iterate_xor (n : Nat) (a b : BitVec 16) :
    lfsrNext^[n] (a ^^^ b) = lfsrNext^[n] a ^^^ lfsrNext^[n] b :=
  Semiconj₂.iterate (op := (· ^^^ ·)) lfsrNext_xor n a b

theorem lfsrNext_eq_zero_iff {l : BitVec 16} : lfsrNext l = 0#16 ↔ l = 0#16 := by
  refine ⟨fun h => by_contra fun hl => lfsrNext_ne_zero hl h, fun h => ?_⟩
  rw [h]
  decide

/-- A difference that vanishes after the step vanished before it. -/
theorem lfsrNext_injective : Injective lfsrNext := by
  intro a b h
  have vanishes : lfsrNext (a ^^^ b) = 0#16 := by rw [lfsrNext_xor, h, BitVec.xor_self]
  exact BitVec.xor_eq_zero_iff.mp (lfsrNext_eq_zero_iff.mp vanishes)

theorem lfsrAfter_eq_zero_iff (k : Nat) (l : BitVec 16) : lfsrAfter k l = 0#16 ↔ l = 0#16 := by
  induction k with
  | zero => rfl
  | succ k ih => rw [lfsrAfter_succ, lfsrNext_eq_zero_iff, ih]

theorem lfsrAfter_eq_iterate (k : Nat) (l : BitVec 16) : lfsrAfter k l = lfsrNext^[k] l := by
  induction k generalizing l with
  | zero => rfl
  | succ k ih => exact ih (lfsrNext l)

/-! ### Sixteen steps are the sum of the taps -/

/-- The taps' polynomial `1 + g^2 + g^3 + g^5` applied to a word, in Horner's order. -/
def tapSum (g : BitVec 16 → BitVec 16) (l : BitVec 16) : BitVec 16 :=
  l ^^^ g (g (l ^^^ g (l ^^^ g (g l))))

/-- The register is a window of sixteen bits on one stream of bits. -/
theorem getLsbD_iterate_lfsrNext (n : Nat) (l : BitVec 16) {i : Nat} (hi : i < 16) :
    (lfsrNext^[n] l).getLsbD i = (lfsrNext^[n + i] l).getLsbD 0 := by
  induction i generalizing n with
  | zero => rfl
  | succ i ih =>
    have moved : (lfsrNext^[n + 1] l).getLsbD i = (lfsrNext^[n] l).getLsbD (i + 1) := by
      rw [iterate_succ_apply', getLsbD_lfsrNext, if_neg (by omega)]
    rw [← moved, ih (n + 1) (by omega), Nat.add_right_comm, Nat.add_assoc]

theorem tapSum_lfsrNext (l : BitVec 16) :
    tapSum lfsrNext l = l ^^^ lfsrNext^[2] l ^^^ lfsrNext^[3] l ^^^ lfsrNext^[5] l := by
  simp only [tapSum, lfsrNext_xor, BitVec.xor_assoc, iterate_succ_apply, iterate_zero_apply]

/-- R97's recurrence on the stream of bits: bit `n + 16` is the sum of the bits `n`, `n + 2`, `n + 3` and `n + 5`. -/
theorem lfsrNext_iterate_sixteen (l : BitVec 16) : lfsrNext^[16] l = tapSum lfsrNext l := by
  refine BitVec.eq_of_getLsbD_eq fun i hi => ?_
  have tap (j : Nat) (hj : j < 16) : (lfsrNext^[i] l).getLsbD j = (lfsrNext^[j] l).getLsbD i := by
    rw [getLsbD_iterate_lfsrNext i l hj, getLsbD_iterate_lfsrNext j l hi, Nat.add_comm]
  calc (lfsrNext^[16] l).getLsbD i
    _ = (lfsrNext^[i + 1] l).getLsbD 15 := by
      rw [getLsbD_iterate_lfsrNext 16 l hi, getLsbD_iterate_lfsrNext (i + 1) l (by decide), Nat.add_comm 16 i]
    _ = lfsrBit (lfsrNext^[i] l) := by rw [iterate_succ_apply', getLsbD_lfsrNext, if_pos rfl]
    _ = (l ^^^ lfsrNext^[2] l ^^^ lfsrNext^[3] l ^^^ lfsrNext^[5] l).getLsbD i := by
      simp only [lfsrBit, tap 0 (by decide), tap 2 (by decide), tap 3 (by decide), tap 5 (by decide),
        BitVec.getLsbD_xor, iterate_zero_apply, Bool.xor_assoc]
    _ = (tapSum lfsrNext l).getLsbD i := by rw [tapSum_lfsrNext]

/-! ### Squaring -/

theorem xor_xor_cancel_left (a b : BitVec 16) : a ^^^ (a ^^^ b) = b := by
  rw [← BitVec.xor_assoc, BitVec.xor_self, BitVec.zero_xor]

theorem xor_left_comm (a b c : BitVec 16) : a ^^^ (b ^^^ c) = b ^^^ (a ^^^ c) := by
  ac_rfl

/-- In characteristic 2 a sum is squared term by term: the mixed terms cancel in pairs. -/
theorem tapSum_comp_self {g : BitVec 16 → BitVec 16} (hg : ∀ a b, g (a ^^^ b) = g a ^^^ g b) (l : BitVec 16) :
    tapSum (g ∘ g) l = tapSum g (tapSum g l) := by
  simp only [tapSum, comp_apply, hg, BitVec.xor_comm, xor_left_comm, xor_xor_cancel_left]

theorem tapSum_iterate_twoPow (k : Nat) : tapSum lfsrNext^[2 ^ k] = lfsrNext^[2 ^ k * 16] := by
  induction k with
  | zero => exact (funext lfsrNext_iterate_sixteen).symm
  | succ k ih =>
    have twice (m : Nat) : lfsrNext^[m + m] = lfsrNext^[m] ∘ lfsrNext^[m] := iterate_add lfsrNext m m
    funext l
    calc tapSum lfsrNext^[2 ^ (k + 1)] l
      _ = tapSum (lfsrNext^[2 ^ k] ∘ lfsrNext^[2 ^ k]) l := by rw [Nat.pow_succ, Nat.mul_two, twice]
      _ = tapSum lfsrNext^[2 ^ k] (tapSum lfsrNext^[2 ^ k] l) := tapSum_comp_self (lfsrNext_iterate_xor _) l
      _ = lfsrNext^[2 ^ (k + 1) * 16] l := by rw [ih, Nat.pow_succ, Nat.mul_two, Nat.add_mul, twice, comp_apply]

/-- The LFSR after `16 ^ j` steps. -/
def lfsrJump : Nat → BitVec 16 → BitVec 16
  | 0 => lfsrShift
  | j + 1 => tapSum (lfsrJump j)

theorem lfsrJump_eq_iterate (j : Nat) : lfsrJump j = lfsrNext^[16 ^ j] := by
  induction j with
  | zero => exact funext lfsrShift_eq
  | succ j ih =>
    have twoPow : 16 ^ j = 2 ^ (4 * j) := by rw [Nat.pow_mul]
    rw [lfsrJump, ih, Nat.pow_succ, twoPow, tapSum_iterate_twoPow]

/-- The LFSR after as many steps as four hexadecimal digits say. -/
def lfsrHex (a b c d : Nat) (l : BitVec 16) : BitVec 16 :=
  (lfsrJump 3)^[a] ((lfsrJump 2)^[b] ((lfsrJump 1)^[c] ((lfsrJump 0)^[d] l)))

theorem lfsrHex_eq_iterate (a b c d : Nat) (l : BitVec 16) :
    lfsrHex a b c d l = lfsrNext^[16 ^ 3 * a + (16 ^ 2 * b + (16 ^ 1 * c + 16 ^ 0 * d))] l := by
  simp only [lfsrHex, lfsrJump_eq_iterate, iterate_add_apply, iterate_mul]

/-! ### The period -/

/-- A period none of whose quotients by a prime is a period is the least one. -/
theorem minimalPeriod_eq_of_prime_quotients {α : Type} {f : α → α} {x : α} {n : Nat} (h : IsPeriodicPt f n x)
    (hp : ∀ p, p.Prime → p ∣ n → ¬IsPeriodicPt f (n / p) x) : minimalPeriod f x = n := by
  obtain ⟨a, ha⟩ := h.minimalPeriod_dvd
  by_contra hne
  have notOne : a ≠ 1 := fun h1 => hne (by rw [ha, h1, Nat.mul_one])
  obtain ⟨p, prime, b, rfl⟩ := Nat.exists_prime_and_dvd notOne
  have product : n = p * (minimalPeriod f x * b) := ha.trans (Nat.mul_left_comm _ _ _)
  have quotient : n / p = minimalPeriod f x * b := by
    rw [product, Nat.mul_div_cancel_left _ prime.pos]
  refine hp p prime ⟨_, product⟩ ?_
  rw [quotient]
  exact (isPeriodicPt_minimalPeriod f x).mul_const b

theorem prime_dvd_65535 {p : Nat} (prime : p.Prime) (h : p ∣ 65535) : p = 3 ∨ p = 5 ∨ p = 17 ∨ p = 257 := by
  have factors : 65535 = 3 * (5 * (17 * 257)) := rfl
  rw [factors, prime.dvd_mul, prime.dvd_mul, prime.dvd_mul, Nat.prime_dvd_prime_iff_eq prime (by norm_num),
    Nat.prime_dvd_prime_iff_eq prime (by norm_num), Nat.prime_dvd_prime_iff_eq prime (by norm_num),
    Nat.prime_dvd_prime_iff_eq prime (by norm_num)] at h
  exact h

/-- After 65536 steps the seed stands where one step takes it. -/
theorem isPeriodicPt_seed : IsPeriodicPt lfsrNext 65535 Config.lfsrSeed := by
  have jump : lfsrJump 4 Config.lfsrSeed = lfsrNext Config.lfsrSeed := by decide
  have steps : 16 ^ 4 = 65535 + 1 := rfl
  rw [lfsrJump_eq_iterate, steps, iterate_succ_apply'] at jump
  exact lfsrNext_injective jump

theorem not_isPeriodicPt_seed {n : Nat} (a b c d : Nat) (hn : n = 16 ^ 3 * a + (16 ^ 2 * b + (16 ^ 1 * c + 16 ^ 0 * d)))
    (moved : lfsrHex a b c d Config.lfsrSeed ≠ Config.lfsrSeed) : ¬IsPeriodicPt lfsrNext n Config.lfsrSeed := by
  rw [lfsrHex_eq_iterate, ← hn] at moved
  exact moved

/-- R101: the quotients of 65535 by its primes are 0x5555, 0x3333, 0x0F0F and 0x00FF. -/
theorem minimalPeriod_seed : minimalPeriod lfsrNext Config.lfsrSeed = 65535 := by
  refine minimalPeriod_eq_of_prime_quotients isPeriodicPt_seed fun p prime hp => ?_
  rcases prime_dvd_65535 prime hp with rfl | rfl | rfl | rfl
  · exact not_isPeriodicPt_seed 5 5 5 5 rfl (by decide)
  · exact not_isPeriodicPt_seed 3 3 3 3 rfl (by decide)
  · exact not_isPeriodicPt_seed 0 15 0 15 rfl (by decide)
  · exact not_isPeriodicPt_seed 0 0 15 15 rfl (by decide)

/-- R101: 65535 distinct non-zero values are all there are. -/
theorem exists_lfsrAfter_seed {x : BitVec 16} (hx : x ≠ 0#16) : ∃ k, k < 65535 ∧ lfsrAfter k Config.lfsrSeed = x := by
  have inRange (y : BitVec 16) (hy : y ≠ 0#16) : y.toNat ∈ Finset.Ico 1 65536 :=
    Finset.mem_Ico.mpr ⟨Nat.one_le_iff_ne_zero.mpr fun h => hy (BitVec.eq_of_toNat_eq h), y.isLt⟩
  have nonzero : Set.MapsTo (fun k => (lfsrAfter k Config.lfsrSeed).toNat) (Finset.range 65535) (Finset.Ico 1 65536) :=
    fun k _ => inRange _ ((lfsrAfter_eq_zero_iff k _).not.mpr (by decide))
  have distinct : Set.InjOn (fun k => (lfsrAfter k Config.lfsrSeed).toNat) (Finset.range 65535) := by
    intro j hj k hk heq
    rw [Finset.coe_range, ← minimalPeriod_seed] at hj hk
    refine iterate_injOn_Iio_minimalPeriod hj hk ?_
    simpa only [lfsrAfter_eq_iterate] using BitVec.eq_of_toNat_eq heq
  have count : (Finset.Ico 1 65536).card ≤ (Finset.range 65535).card := by
    rw [Nat.card_Ico, Finset.card_range]
  obtain ⟨k, hk, value⟩ := Finset.surjOn_of_injOn_of_card_le _ nonzero distinct count (inRange x hx)
  exact ⟨k, Finset.mem_range.mp hk, BitVec.eq_of_toNat_eq value⟩

/-! ### Which commands step it -/

/-- A channel whose part of a SAMPLE steps the LFSR (R99). -/
def stepsLfsr (c : Channel) : Bool := contributes c && decide (c.waveform = 6#3)

theorem mixChannel_lfsr (acc : MixAcc) (c : Channel) :
    (mixChannel acc c).lfsr = if stepsLfsr c then lfsrNext acc.lfsr else acc.lfsr := by
  cases hc : contributes c with
  | false => simp [stepsLfsr, hc, mixChannel_off hc]
  | true =>
    rw [mixChannel_on hc]
    by_cases noise : c.waveform = 6#3
    · simp [stepsLfsr, hc, noise, gen_noise]
    · simp [stepsLfsr, hc, noise, (gen_pure noise c.phase acc.lfsr).1]

theorem foldl_mixChannel_lfsr (acc : MixAcc) (channels : List Channel) :
    (channels.foldl mixChannel acc).lfsr = lfsrAfter (channels.filter stepsLfsr).length acc.lfsr := by
  induction channels generalizing acc with
  | nil => rfl
  | cons c cs ih =>
    rw [List.foldl_cons, ih, mixChannel_lfsr]
    cases hc : stepsLfsr c with
    | false => simp [hc]
    | true => simp [hc, lfsrAfter]

/-- What each command leaves in the LFSR (R99, 10_state.md R37). -/
theorem blockAfter_lfsr (i : Instr) (r : Roms) (b : Block) :
    (blockAfter i r b).lfsr =
      if i = .sample then lfsrAfter (b.ch.toList.filter stepsLfsr).length b.lfsr else b.lfsr := by
  cases i with
  | sample => exact foldl_mixChannel_lfsr _ b.ch.toList
  | trigger ch x =>
    rcases b.trigger_cases ch x r with ⟨_, hb⟩ | ⟨_, _, _, hb⟩ <;> simp [blockAfter, hb]
  | stop ch =>
    rcases b.stop_cases ch with ⟨_, hb⟩ | ⟨_, _, hb⟩ <;> simp [blockAfter, hb]
  | stopall | tick | setvol | nop | rsvdTrig | rsvdOp5 | rsvdOp6_7 | rsvdOp8_F => rfl

/-! ### The obligations -/

/-- Settles O38: 65535 by its primes, then by counting. -/
theorem noisePeriodIs65535 : Obligations.NoisePeriodIs65535 :=
  ⟨minimalPeriod_seed, fun _ => exists_lfsrAfter_seed⟩

/-- Settles O36: noise is the LFSR's step, whose kernel is 0 alone. -/
theorem noiseReturnsTheNewLowByte : Obligations.NoiseReturnsTheNewLowByte :=
  ⟨fun _ _ => ⟨rfl, rfl⟩, lfsrNext_toNat, lfsrAfter_eq_zero_iff, by decide⟩

/-- Settles O39: by the block each command leaves. -/
theorem onlyNoiseSamplesStepTheLfsr : Obligations.OnlyNoiseSamplesStepTheLfsr := by
  intro i s t h
  rw [exec_eq] at h
  cases h
  exact blockAfter_lfsr i s.roms s.block

/-- Settles O37: the outputs are the low bytes of the register values. -/
theorem firstSixteenNoiseValues : Obligations.FirstSixteenNoiseValues := by
  have outputs : (fun k => (gen 6#3 0#16 (lfsrAfter k Config.lfsrSeed)).raw) =
      (fun l : BitVec 16 => l.extractLsb' 0 8) ∘ fun k => lfsrAfter (k + 1) Config.lfsrSeed := by
    funext k
    rw [comp_apply, lfsrAfter_succ, gen_noise]
  rw [Obligations.FirstSixteenNoiseValues, outputs, ← List.map_map]
  refine (fun registers => ⟨registers, ?_⟩) (by decide)
  rw [registers]
  decide

end Sys2Proof.Machine
end

section
/-!
The sequencer's note arithmetic and its commands other than TICK (spec 41_sequencer.md R110 to R119): the classes and
durations of notes, the words of each command, and what a command makes of the block.
-/
namespace Sys2Proof.Machine

/-! ### Note arithmetic -/

/-- R52: an entry of a legal pitch ROM is below the sample rate. -/
theorem pitchHz_le {r : Roms} (legal : Roms.wf r = true) {k : Nat} (hk : k < 64) : Roms.pitchHz r k ≤ 22049 := by
  simp only [Roms.wf, pitchLegal, Bool.and_eq_true, decide_eq_true_eq, List.all_eq_true, and_assoc] at legal
  obtain ⟨length, _, _, _, entries, _⟩ := legal
  have inside : k < r.pitch.length := hk.trans_eq length.symm
  rw [Roms.pitchHz, List.getD_eq_getElem _ _ inside]
  exact (entries _ (List.getElem_mem inside)).2

theorem noteVolume_eq_zero_iff {n : Half} : noteVolume n = 0#3 ↔ (n.extractLsb' 10 3).toNat = 0 :=
  BitVec.toNat_eq

/-- R114: the product stays at the floor up to speed 1. -/
theorem samplesPerNoteOf_of_le_one {speed : Nat} (h : speed ≤ 1) : samplesPerNoteOf speed = 183 :=
  Nat.max_eq_left (Nat.mul_le_mul_right 183 h)

/-! ### The words of the commands -/

section Words
variable {w : Word}

theorem decode_of_nop (op : fieldOp w = 0#4) : decode w = .nop := by
  rw [decode, op]
  rfl

theorem decode_of_tick (op : fieldOp w = 2#4) : decode w = .tick := by
  rw [decode, op]
  rfl

/-- R148: opcodes 5 to 15 are reserved, in three rows. -/
theorem blockAfter_decode_of_reserved (op : 5 ≤ (fieldOp w).toNat) (r : Roms) (b : Block) :
    blockAfter (decode w) r b = b := by
  rw [decode]
  split
  case h_1 | h_2 | h_3 | h_4 | h_5 => omega
  all_goals rfl

theorem decode_of_stop (op : fieldOp w = 1#4) (sfx : fieldSfx w = 0xFFFF#16) : decode w = .stop (fieldCh w) := by
  rw [decode_of_formatT op, decodeFormatT, if_pos sfx]

theorem decode_of_stopall (op : fieldOp w = 1#4) (sfx : fieldSfx w = 0xFFFE#16) :
    decode w = .stopall (fieldCh w) := by
  rw [decode_of_formatT op, decodeFormatT, sfx]
  rfl

theorem decode_of_trigger (op : fieldOp w = 1#4) (index : (fieldSfx w).msb = false) :
    decode w = .trigger (fieldCh w) ((fieldSfx w).setWidth 15) := by
  have notStop : fieldSfx w ≠ 0xFFFF#16 := fun e => absurd (e ▸ index) (by decide)
  have notStopall : fieldSfx w ≠ 0xFFFE#16 := fun e => absurd (e ▸ index) (by decide)
  rw [decode_of_formatT op, decodeFormatT, if_neg notStop, if_neg notStopall, if_pos index]

theorem decode_of_rsvdTrig (op : fieldOp w = 1#4) (low : 0x8000 ≤ (fieldSfx w).toNat)
    (high : (fieldSfx w).toNat ≤ 0xFFFD) : decode w = .rsvdTrig (fieldCh w) (fieldSfx w) := by
  have notStop : fieldSfx w ≠ 0xFFFF#16 := by bv_omega
  have notStopall : fieldSfx w ≠ 0xFFFE#16 := by bv_omega
  have topBit : ¬(fieldSfx w).msb = false := by rw [BitVec.msb_eq_decide]; simpa using low
  rw [decode_of_formatT op, decodeFormatT, if_neg notStop, if_neg notStopall, if_neg topBit]

theorem fieldSfx_msb (w : Word) : (fieldSfx w).msb = w.getLsbD 15 := by
  simp [fieldSfx, BitVec.msb_eq_getLsbD_last]

theorem fieldSfx_setWidth (w : Word) : (fieldSfx w).setWidth 15 = w.extractLsb' 0 15 := by
  rw [BitVec.setWidth_eq_extractLsb' (by decide), fieldSfx, BitVec.extractLsb'_extractLsb'_of_le (by decide)]

end Words

/-! ### Commands on the block -/

section Commands
variable {s : State} {b : Block} {ch : BitVec 8}

theorem exec_of_blockAfter_eq_self {i : Instr} (h : blockAfter i s.roms s.block = s.block) : exec i s = .next s := by
  rw [exec_eq, h, State.withBlock_self]

theorem Block.trigger_in_range {i : Fin 4} {sfx : BitVec 15} {r : Roms} (hch : ch.toNat = i.val)
    (hsfx : sfx.toNat < r.numSfx) (b : Block) : b.trigger ch sfx r = b.updateChannel i (Channel.trigger r sfx) := by
  rw [Block.trigger, channelIndex_eq_some.mpr hch]
  exact if_pos hsfx

theorem Block.stop_in_range {i : Fin 4} (hch : ch.toNat = i.val) (b : Block) :
    b.stop ch = b.updateChannel i Channel.stop := by
  rw [Block.stop, channelIndex_eq_some.mpr hch]

theorem Block.stop_out_of_range (hch : 4 ≤ ch.toNat) (b : Block) : b.stop ch = b := by
  rw [Block.stop, channelIndex_eq_none.mpr hch]

/-- Stopping an Idle channel changes nothing of it (R118). -/
theorem Channel.stop_of_idle {c : Channel} (idle : c.active = false) : c.stop = c := by
  rw [Channel.stop, ← idle]

@[simp] theorem Block.stopAll_channel (b : Block) (i : Fin 4) : b.stopAll.channel i = (b.channel i).stop :=
  b.mapChannels_channel _ i

theorem Block.stopAll_of_idle (idle : ∀ i, (b.channel i).active = false) : b.stopAll = b :=
  Block.ext_channel (fun i => (b.stopAll_channel i).trans (Channel.stop_of_idle (idle i))) rfl rfl rfl

/-- R145: with no contributor the mix is 0 and the LFSR stays. -/
theorem foldl_mixChannel_of_silent (acc : MixAcc) {channels : List Channel}
    (silent : ∀ c ∈ channels, contributes c = false) : channels.foldl mixChannel acc = acc := by
  induction channels with
  | nil => rfl
  | cons c cs ih =>
    rw [List.foldl_cons, mixChannel_off (silent c List.mem_cons_self)]
    exact ih fun d hd => silent d (List.mem_cons_of_mem c hd)

theorem outputValue_zero (masterVolume : BitVec 8) : outputValue 0 masterVolume = 128 := by
  rw [outputValue, Int.zero_mul]
  rfl

theorem Channel.advancePhase_of_silent {c : Channel} (silent : contributes c = false) : c.advancePhase = c := by
  rw [Channel.advancePhase, silent]
  rfl

/-- R145: a SAMPLE without contributors writes the midpoint to `out` and nothing else. -/
theorem Block.sample_of_silent (silent : ∀ i, contributes (b.channel i) = false) :
    b.sample = { b with out := 128#8 } := by
  have mix : mixAll b.lfsr b.ch.toList = { sum := 0, n := 0, lfsr := b.lfsr } := by
    refine foldl_mixChannel_of_silent _ fun c hc => ?_
    rw [ChannelFile.toList_eq_map, List.mem_map] at hc
    obtain ⟨i, _, rfl⟩ := hc
    exact silent i
  refine Block.ext_channel (fun i => ?_) rfl ?_ ?_
  · rw [Block.sample_channel, Channel.advancePhase_of_silent (silent i)]
    rfl
  · rw [Block.sample_lfsr, mix]
  · rw [Block.sample_out, mix, mixOf, if_pos rfl, outputValue_zero]
    rfl

theorem Block.stopAll_sample (b : Block) : b.stopAll.sample = { b.stopAll with out := 128#8 } :=
  Block.sample_of_silent fun i => by rw [Block.stopAll_channel, contributes, Channel.stop_active, Bool.false_and]

end Commands

/-! ### The obligations -/

/-- Settles O10: the entry is below the sample rate, so the quotient is below 65536 and loses nothing in 16 bits. -/
theorem phaseIncrementIsExact : Obligations.PhaseIncrementIsExact := by
  intro r k legal hk
  have entry := pitchHz_le legal hk
  have fits : Roms.pitchHz r k * 65536 / 22050 < 65536 := by omega
  exact ⟨fits, (BitVec.toNat_ofNat _ _).trans (Nat.mod_eq_of_lt fits)⟩

/-- Settles O12: by the three classes, whose conditions exclude each other. -/
theorem everyNoteHasOneClass : Obligations.EveryNoteHasOneClass := by
  intro n
  have classes := noteClass_cases n
  rw [ne_eq, noteVolume_eq_zero_iff, notePitch] at classes
  rcases classes with ⟨volume, hc⟩ | ⟨volume, pitch, hc⟩ | ⟨volume, pitch, hc⟩ <;>
    simp only [hc, reduceCtorEq, false_iff, true_iff] <;> omega

/-- Settles O15: each command answers its own block, and the words are those of the opcode table's rows. -/
theorem ignoredCommandsChangeNothing : Obligations.IgnoredCommandsChangeNothing := by
  intro s
  refine ⟨rfl, fun _ _ => rfl, rfl, fun _ => rfl, fun _ => rfl, fun w => decode_of_nop,
    fun w op => exec_of_blockAfter_eq_self (blockAfter_decode_of_reserved op _ _), fun w op low high => ?_⟩
  have reserved := decode_of_rsvdTrig op low high
  exact ⟨reserved, by rw [reserved]; rfl⟩

/-- Settles O16: `Block.trigger_in_range` names the channel written, and the class of note 0 decides its last two
fields. -/
theorem triggerBindsTheRecordAndLoadsNoteZero : Obligations.TriggerBindsTheRecordAndLoadsNoteZero := by
  intro s ch sfx
  refine ⟨fun outside => exec_trigger_out_of_range outside.symm, fun w op index => ?_, fun i hch hsfx => ?_⟩
  · rw [← fieldSfx_setWidth]
    exact decode_of_trigger op ((fieldSfx_msb w).trans index)
  have run := exec_eq (.trigger ch sfx) s
  rw [blockAfter, Block.trigger_in_range hch hsfx] at run
  obtain ⟨sounding, _, _⟩ := everyNoteHasOneClass (Roms.note s.roms sfx.toNat 0)
  refine ⟨_, (s.block.channel i).trigger s.roms sfx, run, Block.updateChannel_channel_same _ _ _, rfl, rfl, rfl, rfl, rfl,
    Channel.bind_samplesPerNote_toNat _ _ (s.block.channel i), decide_eq_true_iff, rfl, rfl, fun low loud => ?_,
    fun quiet => ?_, fun j other => Block.updateChannel_channel_ne _ _ other, rfl, rfl, rfl, rfl⟩
  · have plays := sounding.mpr ⟨low, loud⟩
    exact ⟨activeAfterTrigger_iff.mpr plays, if_pos plays⟩
  · have notSounding : noteClass (Roms.note s.roms sfx.toNat 0) ≠ .sounding := by
      rw [ne_eq, sounding]
      omega
    exact ⟨decide_eq_false notSounding, if_neg notSounding⟩

/-- Settles O17: STOP is `Channel.stop` on the channel it names. -/
theorem stopClearsOnlyActive : Obligations.StopClearsOnlyActive := by
  intro s ch
  refine ⟨fun outside => exec_of_blockAfter_eq_self (Block.stop_out_of_range outside _), fun w => decode_of_stop,
    fun i hch => ?_⟩
  have stopped := exec_eq (.stop ch) s
  rw [blockAfter, Block.stop_in_range hch] at stopped
  refine ⟨_, stopped, Block.updateChannel_channel_same _ _ _, fun j other => Block.updateChannel_channel_ne _ _ other,
    rfl, rfl, rfl, rfl, fun idle => ?_⟩
  rw [Block.updateChannel_eq_self _ _ _ (Channel.stop_of_idle idle), State.withBlock_self]

/-- Settles O18: STOPALL is `Channel.stop` on every channel, after which none contributes. -/
theorem stopAllClearsEveryActive : Obligations.StopAllClearsEveryActive := by
  refine ⟨fun w => decode_of_stopall, fun s ch => ⟨_, exec_eq _ s, s.block.stopAll_channel, rfl, rfl, rfl, rfl, ?_,
    fun idle => ?_⟩⟩
  · exact ⟨_, exec_eq _ _, congrArg Block.out s.block.stopAll_sample⟩
  · rw [blockAfter, Block.stopAll_of_idle idle, State.withBlock_self]

/-- Settles O19: the SAMPLE after a STOPALL writes `out` alone, by `Block.stopAll_sample`. -/
theorem stopAllSilencesTheNextSample : Obligations.StopAllSilencesTheNextSample := by
  intro s ch
  have silenced : blockAfterAll s.roms [.stopall ch, .sample] s.block = { s.block.stopAll with out := 128#8 } :=
    s.block.stopAll_sample
  refine ⟨_, execAll_eq _ s, ?_⟩
  rw [State.withBlock_block, silenced]
  exact ⟨rfl, rfl, fun i => (congrArg Channel.phase (s.block.stopAll_channel i) :)⟩

/-- Settles O11: the floor of R114, and its bounds. -/
theorem samplesPerNoteIsFlooredAt183 : Obligations.SamplesPerNoteIsFlooredAt183 := fun h =>
  ⟨rfl, noteFloor_le_samplesPerNoteOf _, samplesPerNoteOf_headerSpeed_le h, samplesPerNoteOf_of_le_one⟩

end Sys2Proof.Machine
end

section
/-!
TICK and the sequences it plays (spec 41_sequencer.md R120 to R123): what it makes of one active channel, then of a
channel over any number of TICKs, by the time a note lasts and by the notes a voice goes through.
-/
namespace Sys2Proof.Machine
open Function

section Rules
variable {r : Roms} {c d : Channel}

/-! ### One TICK of an active channel -/

/-- R40 (f): a frame's samples never overflow the count. -/
theorem Channel.Inv.countFrame_lt_iff (h : Channel.Inv r c) (alive : c.active = true) :
    c.countFrame.sampleCount < c.samplesPerNote ↔ c.sampleCount.toNat + 367 < c.samplesPerNote.toNat := by
  have longest : c.samplesPerNote.toNat ≤ 46665 :=
    (h.duration (h.activeBound alive)).trans_le (samplesPerNoteOf_headerSpeed_le _)
  have left := h.timeLeft alive
  rw [BitVec.lt_def, Channel.countFrame_toNat (by omega)]

theorem Channel.Inv.tick_of_time_left (h : Channel.Inv r c) (alive : c.active = true)
    (left : c.sampleCount.toNat + 367 < c.samplesPerNote.toNat) :
    c.tick r = { c with sampleCount := BitVec.ofNat 16 (c.sampleCount.toNat + 367) } := by
  rw [Channel.tick_same_note alive ((h.countFrame_lt_iff alive).mpr left), Channel.countFrame, tickInc_eq,
    BitVec.ofNat_add, BitVec.ofNat_toNat, BitVec.setWidth_eq]

theorem Channel.Inv.tick_of_time_out (h : Channel.Inv r c) (alive : c.active = true)
    (out : c.samplesPerNote.toNat ≤ c.sampleCount.toNat + 367) : c.tick r = c.clearCount.advance r := by
  rw [Channel.tick_time_out alive ((h.countFrame_lt_iff alive).not.mpr (Nat.not_lt.mpr out)),
    Channel.clearCount_countFrame]

/-! ### Where the sequence goes -/

theorem Channel.advance_wrap (loops : c.looping = true)
    (ended : headerLoopEnd (Roms.header r c.sfx.toNat) ≤ c.noteIndex.toNat + 1) :
    c.advance r = c.loadNote r (BitVec.ofNat 5 (headerLoopStart (Roms.header r c.sfx.toNat))) := by
  rw [Channel.advance, nextNoteIndex, if_pos ⟨loops, ended⟩]

/-- R121: a channel stays off its wrap target while it does not loop or has notes left before `loopEnd`. -/
theorem Channel.not_wrap_iff {loopEnd : Nat} : ¬(c.looping = true ∧ loopEnd ≤ c.noteIndex.toNat + 1) ↔
    c.looping = false ∨ c.noteIndex.toNat + 1 < loopEnd := by
  rw [not_and_or, Bool.not_eq_true, Nat.not_le]

theorem Channel.advance_end
    (straight : c.looping = false ∨ c.noteIndex.toNat + 1 < headerLoopEnd (Roms.header r c.sfx.toNat))
    (last : c.noteIndex.toNat = 31) : c.advance r = c.stop := by
  have past : Config.notesPerSfx ≤ c.noteIndex.toNat + 1 := (congrArg (· + 1) last).ge
  rw [Channel.advance, nextNoteIndex, if_neg (Channel.not_wrap_iff.mpr straight), if_pos past]

theorem Channel.advance_next
    (straight : c.looping = false ∨ c.noteIndex.toNat + 1 < headerLoopEnd (Roms.header r c.sfx.toNat))
    (more : c.noteIndex.toNat < 31) : c.advance r = c.loadNote r (BitVec.ofNat 5 (c.noteIndex.toNat + 1)) := by
  have inside : ¬Config.notesPerSfx ≤ c.noteIndex.toNat + 1 := Nat.not_le.mpr (Nat.succ_lt_succ more)
  rw [Channel.advance, nextNoteIndex, if_neg (Channel.not_wrap_iff.mpr straight), if_neg inside]

/-- R35: a channel that loops has its wrap target before its loop's end. -/
theorem Channel.Inv.loopStart_lt_loopEnd (h : Channel.Inv r c) (alive : c.active = true) (loops : c.looping = true) :
    headerLoopStart (Roms.header r c.sfx.toNat) < headerLoopEnd (Roms.header r c.sfx.toNat) :=
  of_decide_eq_true ((h.loops (h.activeBound alive)).symm.trans loops)

theorem noteIndex_toNat {k : Nat} (hk : k < 32) : (BitVec.ofNat 5 k).toNat = k := by
  rw [BitVec.toNat_ofNat]
  exact Nat.mod_eq_of_lt hk

/-- TICK's load, by the class of the note. -/
theorem Channel.noteLoaded_loadNote (r : Roms) (c : Channel) {k : Nat} (hk : k < 32) :
    Channel.NoteLoaded r c (c.clearCount.loadNote r (BitVec.ofNat 5 k)) k := by
  have index := noteIndex_toNat hk
  generalize BitVec.ofNat 5 k = i at index
  subst index
  have classes := noteClass_cases (Roms.note r c.sfx.toNat i.toNat)
  refine
    { index := rfl, counted := rfl, wave := rfl, level := rfl, kept := ⟨rfl, rfl, rfl, rfl, rfl⟩
      soundingNote := fun low loud => ?_, restNote := fun silent => ?_, deadNote := fun high loud => ?_ }
  · rcases classes with ⟨silent, _⟩ | ⟨_, _, hc⟩ | ⟨_, high, _⟩
    · exact absurd silent loud
    · simp [activeAfterTick, hc]
    · omega
  · rcases classes with ⟨_, hc⟩ | ⟨loud, _⟩ | ⟨loud, _⟩
    · simp [activeAfterTick, hc]
    · exact absurd silent loud
    · exact absurd silent loud
  · rcases classes with ⟨silent, _⟩ | ⟨_, low, _⟩ | ⟨_, _, hc⟩
    · exact absurd silent loud
    · omega
    · simp [activeAfterTick, hc]

/-! ### Many TICKs of one channel -/

@[simp] theorem Block.tick_channel (r : Roms) (b : Block) (i : Fin 4) : (b.tick r).channel i = (b.channel i).tick r :=
  b.mapChannels_channel _ i

theorem blockAfterAll_replicate_tick_channel (r : Roms) (n : Nat) (b : Block) (i : Fin 4) :
    (blockAfterAll r (List.replicate n .tick) b).channel i = (Channel.tick r)^[n] (b.channel i) := by
  induction n generalizing b with
  | zero => rfl
  | succ n ih =>
    rw [List.replicate_succ, blockAfterAll, ih, iterate_succ_apply, blockAfter, Block.tick_channel]

/-- A list of TICKs makes of each channel its TICKs alone (R120). -/
theorem execAll_replicate_tick (n : Nat) (s : State) : ∃ t, execAll (List.replicate n .tick) s = .next t ∧
    ∀ i : Fin 4, t.block.channel i = (Channel.tick s.roms)^[n] (s.block.channel i) :=
  ⟨_, execAll_eq _ s, blockAfterAll_replicate_tick_channel s.roms n s.block⟩

/-! ### How long a note lasts -/

theorem Channel.lt_ticksPerNote_iff (c : Channel) (j : Nat) : j < c.ticksPerNote ↔ 367 * j < c.samplesPerNote.toNat := by
  rw [Channel.ticksPerNote]
  omega

/-- A count within a note's TICKs fits its register. -/
theorem Channel.count_toNat {j : Nat} (hj : j < c.ticksPerNote) : (BitVec.ofNat 16 (367 * j)).toNat = 367 * j := by
  rw [BitVec.toNat_ofNat]
  exact Nat.mod_eq_of_lt (((c.lt_ticksPerNote_iff j).mp hj).trans c.samplesPerNote.isLt)

theorem Channel.Inv.counted (h : Channel.Inv r c) {j : Nat} (hj : j < c.ticksPerNote) :
    Channel.Inv r { c with sampleCount := BitVec.ofNat 16 (367 * j) } :=
  h.withCount fun _ => (Channel.count_toNat hj).trans_lt ((c.lt_ticksPerNote_iff j).mp hj)

/-- R123: the count of a fresh note rises by 367 a TICK while time is left. -/
theorem Channel.Inv.iterate_tick_same_note (h : Channel.Inv r c) (alive : c.active = true)
    (fresh : c.sampleCount = 0#16) {j : Nat} (hj : j < c.ticksPerNote) :
    (Channel.tick r)^[j] c = { c with sampleCount := BitVec.ofNat 16 (367 * j) } := by
  induction j with
  | zero => rw [iterate_zero_apply, Nat.mul_zero, ← fresh]
  | succ j ih =>
    have earlier : j < c.ticksPerNote := Nat.lt_of_succ_lt hj
    have left := (c.lt_ticksPerNote_iff (j + 1)).mp hj
    rw [iterate_succ_apply', ih earlier, (h.counted earlier).tick_of_time_left alive, Channel.count_toNat earlier,
      Nat.mul_succ]
    rw [Channel.count_toNat earlier]
    exact left

/-- R123: the last of a fresh note's TICKs advances the sequence. -/
theorem Channel.Inv.iterate_tick_ticksPerNote (h : Channel.Inv r c) (alive : c.active = true)
    (fresh : c.sampleCount = 0#16) : (Channel.tick r)^[c.ticksPerNote] c = c.advance r := by
  have floor := h.noteFloor (h.activeBound alive)
  obtain ⟨j, hj⟩ : ∃ j, c.ticksPerNote = j + 1 :=
    Nat.exists_eq_add_one.mpr ((c.lt_ticksPerNote_iff 0).mpr (by omega))
  have last : j < c.ticksPerNote := by omega
  have out : c.samplesPerNote.toNat ≤ 367 * (j + 1) :=
    Nat.not_lt.mp ((c.lt_ticksPerNote_iff (j + 1)).not.mp (by omega))
  rw [hj, iterate_succ_apply', h.iterate_tick_same_note alive fresh last, (h.counted last).tick_of_time_out alive,
    Channel.clearCount, ← fresh]
  rw [Channel.count_toNat last]
  exact out

/-! ### A voice in its loop -/

/-- A channel playing record `x` inside a loop that ends by note 32 and holds no Dead note before its end, at a note
from `low` on (R122). -/
structure Channel.InLoop (r : Roms) (x : BitVec 15) (low : Nat) (c : Channel) : Prop where
  inv : Channel.Inv r c
  alive : c.active = true
  loops : c.looping = true
  record : c.sfx = x
  loopEnd_le : headerLoopEnd (Roms.header r x.toNat) ≤ 32
  low_le : low ≤ headerLoopStart (Roms.header r x.toNat)
  above : low ≤ c.noteIndex.toNat
  below : c.noteIndex.toNat < headerLoopEnd (Roms.header r x.toNat)
  noDead : ∀ k, k < headerLoopEnd (Roms.header r x.toNat) → noteClass (Roms.note r x.toNat k) ≠ .dead

/-- A load of any note of the loop from `low` on stays in it. -/
theorem Channel.InLoop.loadNote {x : BitVec 15} {low k : Nat} (h : Channel.InLoop r x low c) (above : low ≤ k)
    (below : k < headerLoopEnd (Roms.header r x.toNat)) :
    Channel.InLoop r x low (c.clearCount.loadNote r (BitVec.ofNat 5 k)) := by
  have index := noteIndex_toNat (below.trans_le h.loopEnd_le)
  exact
    { inv := h.inv.clearCount.loadNote h.alive _
      alive := by
        rw [Channel.loadNote_active, activeAfterTick_iff, Channel.clearCount_sfx, h.record, index]
        exact h.noDead k below
      loops := h.loops
      record := h.record
      loopEnd_le := h.loopEnd_le
      low_le := h.low_le
      above := above.trans_eq index.symm
      below := index.trans_lt below
      noDead := h.noDead }

/-- R122: after the note before `loopEnd` comes `loopStart`, after any other its successor. -/
theorem Channel.InLoop.tick {x : BitVec 15} {low : Nat} (h : Channel.InLoop r x low c) :
    Channel.InLoop r x low (c.tick r) := by
  obtain rfl := h.record
  by_cases left : c.sampleCount.toNat + 367 < c.samplesPerNote.toNat
  · have inv := h.inv.tick
    rw [h.inv.tick_of_time_left h.alive left] at inv ⊢
    exact { h with inv := inv }
  · rw [h.inv.tick_of_time_out h.alive (Nat.not_lt.mp left)]
    by_cases ended : headerLoopEnd (Roms.header r c.sfx.toNat) ≤ c.noteIndex.toNat + 1
    · rw [Channel.advance_wrap (c := c.clearCount) h.loops ended]
      exact h.loadNote h.low_le (h.inv.loopStart_lt_loopEnd h.alive h.loops)
    · have more : c.noteIndex.toNat < 31 := by
        have := h.loopEnd_le
        omega
      rw [Channel.advance_next (c := c.clearCount) (.inr (Nat.not_le.mp ended)) more]
      exact h.loadNote (h.above.trans (Nat.le_succ _)) (Nat.not_le.mp ended)

theorem Channel.InLoop.iterate_tick {x : BitVec 15} {low : Nat} (h : Channel.InLoop r x low c) (n : Nat) :
    Channel.InLoop r x low ((Channel.tick r)^[n] c) :=
  Iterate.rec _ h (fun _ hc => hc.tick) n

/-! ### A voice that plays every note once -/

/-- Channel `d` has just loaded note `k` of the voice that `c` plays (R123). -/
structure Channel.FreshAt (r : Roms) (c : Channel) (k : Nat) (d : Channel) : Prop where
  inv : Channel.Inv r d
  alive : d.active = true
  fresh : d.sampleCount = 0#16
  index : d.noteIndex.toNat = k
  record : d.sfx = c.sfx
  duration : d.samplesPerNote = c.samplesPerNote
  loops : d.looping = c.looping

theorem Channel.FreshAt.ticksPerNote {k : Nat} (h : Channel.FreshAt r c k d) : d.ticksPerNote = c.ticksPerNote := by
  rw [Channel.ticksPerNote, Channel.ticksPerNote, h.duration]

/-- R121: with no loop, or a loop's end past the last note, the sequence never wraps. -/
theorem Channel.FreshAt.straight {k : Nat} (h : Channel.FreshAt r c k d)
    (plain : c.looping = false ∨ 33 ≤ headerLoopEnd (Roms.header r c.sfx.toNat)) :
    d.looping = false ∨ d.noteIndex.toNat + 1 < headerLoopEnd (Roms.header r d.sfx.toNat) := by
  rw [h.loops, h.record]
  exact plain.imp_right (Nat.lt_of_lt_of_le (Nat.succ_lt_succ d.noteIndex.isLt))

theorem Channel.FreshAt.iterate_tick_ticksPerNote {k : Nat} (h : Channel.FreshAt r c k d) :
    (Channel.tick r)^[c.ticksPerNote] d = d.advance r := by
  rw [← h.ticksPerNote, h.inv.iterate_tick_ticksPerNote h.alive h.fresh]

/-- A note's TICKs lead to its successor, unless that one is Dead. -/
theorem Channel.FreshAt.next {k : Nat} (h : Channel.FreshAt r c k d) (more : k < 31)
    (plain : c.looping = false ∨ 33 ≤ headerLoopEnd (Roms.header r c.sfx.toNat))
    (noDead : noteClass (Roms.note r c.sfx.toNat (k + 1)) ≠ .dead) :
    Channel.FreshAt r c (k + 1) ((Channel.tick r)^[c.ticksPerNote] d) := by
  have index : (BitVec.ofNat 5 (k + 1)).toNat = k + 1 := noteIndex_toNat (by omega)
  rw [h.iterate_tick_ticksPerNote, Channel.advance_next (h.straight plain) (h.index.trans_lt more), h.index]
  exact
    { inv := h.inv.loadNote h.alive _
      alive := by
        rw [Channel.loadNote_active, activeAfterTick_iff, h.record, index]
        exact noDead
      fresh := h.fresh
      index := index
      record := h.record
      duration := h.duration
      loops := h.loops }

/-- R122: note `k` begins after `k` times a note's TICKs. -/
theorem Channel.FreshAt.iterate_tick {k : Nat} (h : Channel.FreshAt r c 0 c) (hk : k ≤ 31)
    (plain : c.looping = false ∨ 33 ≤ headerLoopEnd (Roms.header r c.sfx.toNat))
    (noDead : ∀ k, 1 ≤ k → k ≤ 31 → noteClass (Roms.note r c.sfx.toNat k) ≠ .dead) :
    Channel.FreshAt r c k ((Channel.tick r)^[k * c.ticksPerNote] c) := by
  induction k with
  | zero =>
    rw [Nat.zero_mul]
    exact h
  | succ k ih =>
    rw [Nat.succ_mul, Nat.add_comm (k * _), iterate_add_apply]
    exact (ih (by omega)).next hk plain (noDead (k + 1) (by omega) hk)

end Rules

/-! ### The obligations -/

/-- Settles O20: TICK is the same function of every channel and the ROMs, and leaves an Idle channel alone. -/
theorem tickStepsEachActiveChannelAlone : Obligations.TickStepsEachActiveChannelAlone := by
  intro s
  have ticked (s : State) := s.block.tick_channel s.roms
  refine ⟨_, exec_eq .tick s, rfl, rfl, rfl, rfl, fun i idle => ?_, fun i => ?_, fun s' t' i j roms same run => ?_⟩
  · exact (ticked s i).trans (Channel.tick_idle idle)
  · obtain ⟨_, _, _, phase, looping⟩ := (s.block.channel i).tick_keeps s.roms
    exact ⟨(congrArg Channel.looping (ticked s i)).trans looping, (congrArg Channel.phase (ticked s i)).trans phase⟩
  · rw [exec_eq] at run
    cases run
    exact (ticked s' j).trans ((congrArg₂ Channel.tick roms same).trans (ticked s i).symm)

/-- Settles O21: by whether time is left in the note, and then by where the sequence goes. -/
theorem tickFollowsTheSequence : Obligations.TickFollowsTheSequence := by
  refine ⟨fun w => decode_of_tick, fun s i inv alive => ?_⟩
  have ticked := s.block.tick_channel s.roms
  have inv := inv.channels i
  generalize hc : s.block.channel i = c at inv alive
  refine ⟨_, exec_eq .tick s, rfl, rfl, rfl, rfl, fun j idle => (ticked j).trans (Channel.tick_idle idle),
    fun left => ?_, fun out => ?_⟩
  · rw [State.withBlock_block, blockAfter, ticked, hc, inv.tick_of_time_left alive left]
  · rw [State.withBlock_block, blockAfter, ticked, hc, inv.tick_of_time_out alive out]
    refine ⟨fun loops ended => ?_, fun straight last => ?_, fun straight more => ?_⟩
    · have target : headerLoopStart (Roms.header s.roms c.sfx.toNat) < 32 :=
        (inv.loopStart_lt_loopEnd alive loops).trans_le (ended.trans c.noteIndex.isLt)
      rw [Channel.advance_wrap (c := c.clearCount) loops ended]
      exact ⟨Nat.le_of_lt_succ target, c.noteLoaded_loadNote s.roms target⟩
    · exact Channel.advance_end straight last
    · rw [Channel.advance_next (c := c.clearCount) straight more]
      exact c.noteLoaded_loadNote s.roms (Nat.succ_lt_succ more)

/-- Settles O22: the count of a fresh note is 367 times the TICKs since. -/
theorem noteLastsItsTicks : Obligations.NoteLastsItsTicks := by
  refine ⟨by decide, fun s i inv alive fresh => ⟨fun j hj => ?_, ?_⟩⟩
  · obtain ⟨t, run, channels⟩ := execAll_replicate_tick j s
    exact ⟨t, run, (channels i).trans ((inv.channels i).iterate_tick_same_note alive fresh hj)⟩
  · obtain ⟨t, run, channels⟩ := execAll_replicate_tick (s.block.channel i).ticksPerNote s
    exact ⟨t, run, (channels i).trans ((inv.channels i).iterate_tick_ticksPerNote alive fresh)⟩

/-- Settles O23: TICK keeps the channel in its loop, from its note or from `loopStart` on, whichever is lower. -/
theorem loopingVoiceStaysInItsLoop : Obligations.LoopingVoiceStaysInItsLoop := by
  intro s i n inv alive loops loopEnd_le below noDead
  have inLoop : Channel.InLoop s.roms (s.block.channel i).sfx
      (min (headerLoopStart (Roms.header s.roms (s.block.channel i).sfx.toNat)) (s.block.channel i).noteIndex.toNat)
      (s.block.channel i) :=
    { inv := inv.channels i, alive := alive, loops := loops, record := rfl, loopEnd_le := loopEnd_le,
      low_le := Nat.min_le_left _ _, above := Nat.min_le_right _ _, below := below, noDead := noDead }
  obtain ⟨t, run, channels⟩ := execAll_replicate_tick n s
  have after := inLoop.iterate_tick n
  rw [← channels i] at after
  exact ⟨t, run, after.alive, after.below, fun reached => (Nat.min_eq_left reached).symm.trans_le after.above⟩

/-- Settles O24: note `k` begins after `k` times a note's TICKs and lasts them, and after the last one the voice stops. -/
theorem nonLoopingVoicePlaysEveryNoteOnce : Obligations.NonLoopingVoicePlaysEveryNoteOnce := by
  intro s i inv alive first fresh plain noDead
  have start : Channel.FreshAt s.roms (s.block.channel i) 0 (s.block.channel i) :=
    { inv := inv.channels i, alive := alive, fresh := fresh, index := congrArg BitVec.toNat first, record := rfl,
      duration := rfl, loops := rfl }
  refine ⟨fun k j hk hj => ?_, ?_⟩
  · have note := start.iterate_tick hk plain noDead
    obtain ⟨t, run, channels⟩ := execAll_replicate_tick (k * (s.block.channel i).ticksPerNote + j) s
    refine ⟨t, run, ?_⟩
    rw [channels i, Nat.add_comm, iterate_add_apply,
      note.inv.iterate_tick_same_note note.alive note.fresh (hj.trans_eq note.ticksPerNote.symm)]
    exact ⟨note.alive, note.index⟩
  · have note := start.iterate_tick (le_refl 31) plain noDead
    obtain ⟨t, run, channels⟩ := execAll_replicate_tick (32 * (s.block.channel i).ticksPerNote) s
    refine ⟨t, run, ?_⟩
    rw [channels i, Nat.succ_mul, Nat.add_comm, iterate_add_apply, note.iterate_tick_ticksPerNote,
      Channel.advance_end (note.straight plain) note.index]
    exact ⟨rfl, note.index⟩

end Sys2Proof.Machine
end

section
/-!
SAMPLE and SETVOL (spec 42_mixer.md R141 to R146): the ranges of the mix, its value as a sum over the contributing
channels, and what the two commands make of the block.
-/
namespace Sys2Proof.Machine

/-! ### Truncated division keeps a range -/

section Ranges
variable {a : Int} {v k : Nat}

/-- A signed amplitude times a level of at most `k`. -/
theorem mul_mem_Icc (ha : a ∈ Set.Icc (-128) 127) (hv : v ≤ k) : a * (v : Int) ∈ Set.Icc (-128 * (k : Int)) (127 * k) := by
  obtain ⟨low, high⟩ := ha
  have below : 128 * (v : Int) ≤ 128 * k := by omega
  have scaledLow : -128 * (v : Int) ≤ a * v := Int.mul_le_mul_of_nonneg_right low v.cast_nonneg
  have scaledHigh : a * (v : Int) ≤ 127 * v := Int.mul_le_mul_of_nonneg_right high v.cast_nonneg
  exact ⟨by omega, by omega⟩

theorem tdiv_mem_Icc {b lo hi : Int} (hb : 0 < b) (h : a ∈ Set.Icc (lo * b) (hi * b)) : tdiv a b ∈ Set.Icc lo hi := by
  obtain ⟨low, high⟩ := h
  have least := Int.tdiv_le_tdiv hb low
  have most := Int.tdiv_le_tdiv hb high
  rw [Int.mul_tdiv_cancel _ hb.ne'] at least most
  exact ⟨least, most⟩

/-- Scaling by `v / k` with `v <= k` keeps a signed amplitude in its range: `delta` with 7, the output with 255. -/
theorem tdiv_mul_mem_Icc (ha : a ∈ Set.Icc (-128) 127) (hv : v ≤ k) (hk : 0 < k) :
    tdiv (a * (v : Int)) (k : Int) ∈ Set.Icc (-128) 127 :=
  tdiv_mem_Icc (Int.natCast_pos.mpr hk) (mul_mem_Icc ha hv)

end Ranges

/-! ### The ranges of the mix (R145) -/

theorem delta_mem_Icc (raw : Byte) (v : BitVec 3) : delta raw v ∈ Set.Icc (-128) 127 := by
  have byte := raw.isLt
  exact tdiv_mul_mem_Icc (k := 7) ⟨by omega, by omega⟩ (Nat.le_of_lt_succ v.isLt) (by decide)

/-- The sum lies where as many deviations as were counted can put it. -/
def MixAcc.InRange (acc : MixAcc) : Prop := acc.sum ∈ Set.Icc (-128 * (acc.n : Int)) (127 * acc.n)

theorem MixAcc.InRange.mixChannel {acc : MixAcc} (h : acc.InRange) (c : Channel) : (mixChannel acc c).InRange := by
  cases hc : contributes c with
  | false => rwa [mixChannel_off hc]
  | true =>
    obtain ⟨low, high⟩ := h
    obtain ⟨deltaLow, deltaHigh⟩ := delta_mem_Icc (gen c.waveform c.phase acc.lfsr).raw c.volume
    rw [mixChannel_on hc]
    constructor <;> push_cast <;> omega

section Mix
variable (l : BitVec 16) (channels : List Channel)

theorem mixAll_inRange : (mixAll l channels).InRange :=
  List.foldlRecOn channels mixChannel (motive := MixAcc.InRange) ⟨le_rfl, le_rfl⟩ fun _ h c _ => h.mixChannel c

theorem mixAll_n : (mixAll l channels).n = (channels.filter contributes).length := by
  induction channels using List.reverseRecOn with
  | nil => rfl
  | append_singleton cs c ih =>
    rw [mixAll, List.foldl_concat, List.filter_append, List.length_append, ← ih]
    cases hc : contributes c with
    | false => simp [mixChannel_off hc, hc, mixAll]
    | true => simp [mixChannel_on hc, hc, mixAll]

theorem mixOf_mixAll_mem_Icc : mixOf (mixAll l channels) ∈ Set.Icc (-128) 127 := by
  by_cases empty : (mixAll l channels).n = 0
  · rw [mixOf, if_pos empty]
    decide
  · rw [mixOf, if_neg empty]
    exact tdiv_mem_Icc (Int.natCast_pos.mpr (Nat.pos_of_ne_zero empty)) (mixAll_inRange l channels)

end Mix

/-! ### The output value (R143) -/

section Output
variable {mix : Int} {masterVolume : BitVec 8}

theorem scaledMix_mem_Icc (h : mix ∈ Set.Icc (-128) 127) (masterVolume : BitVec 8) :
    tdiv (mix * (masterVolume.toNat : Int)) 255 ∈ Set.Icc (-128) 127 :=
  tdiv_mul_mem_Icc h (Nat.le_of_lt_succ masterVolume.isLt) (by decide)

/-- The clamp never acts on a mix in its range. -/
theorem outputValue_eq (h : mix ∈ Set.Icc (-128) 127) (masterVolume : BitVec 8) :
    outputValue mix masterVolume = 128 + tdiv (mix * (masterVolume.toNat : Int)) 255 := by
  obtain ⟨low, high⟩ := scaledMix_mem_Icc h masterVolume
  rw [outputValue, clamp, max_eq_left (by omega), min_eq_left (by omega)]

/-- Master volumes 0 and 1 silence the block: a scaled mix below 255 in size is cut to 0. -/
theorem outputValue_of_le_one (h : mix ∈ Set.Icc (-128) 127) (quiet : masterVolume.toNat ≤ 1) :
    outputValue mix masterVolume = 128 := by
  obtain ⟨low, high⟩ := mul_mem_Icc h quiet
  have small : tdiv (mix * (masterVolume.toNat : Int)) 255 = 0 := by
    rw [tdiv, ← Int.natAbs_eq_zero, Int.natAbs_tdiv]
    exact Nat.div_eq_of_lt (by omega)
  rw [outputValue_eq h, small, Int.add_zero]

/-- Master volume 255 is unit gain. -/
theorem outputValue_full (h : mix ∈ Set.Icc (-128) 127) : outputValue mix 255#8 = 128 + mix := by
  rw [outputValue_eq h]
  exact congrArg (128 + ·) (Int.mul_tdiv_cancel mix (by decide))

/-- The clamped value fits the 8-bit register. -/
theorem toNat_ofInt_outputValue (mix : Int) (masterVolume : BitVec 8) :
    ((BitVec.ofInt 8 (outputValue mix masterVolume)).toNat : Int) = outputValue mix masterVolume := by
  have low : 0 ≤ outputValue mix masterVolume := le_min (le_max_right _ _) (by decide)
  have high : outputValue mix masterVolume ≤ 255 := min_le_right _ _
  exact toNat_ofInt_of_bounds low (by omega)

end Output

/-! ### The sum, channel by channel (R141) -/

theorem contributes_eq (c : Channel) : contributes c = (c.active && decide (0 < c.volume.toNat)) := by
  rw [contributes]
  congr 2
  rw [Nat.pos_iff_ne_zero, ne_eq, BitVec.toNat_eq]
  rfl

theorem not_contributes {c : Channel} (h : c.active = false ∨ c.volume = 0#3) : contributes c = false := by
  rcases h with idle | silent
  · rw [contributes, idle, Bool.false_and]
  · rw [contributes, silent]
    exact Bool.and_false _

/-- R141's advance, as arithmetic modulo 65536. -/
theorem Channel.advancePhase_eq (c : Channel) :
    c.advancePhase = { c with
      phase := if contributes c then BitVec.ofNat 16 ((c.phase.toNat + c.phaseIncrement.toNat) % 65536) else c.phase } := by
  rcases c.advancePhase_cases with ⟨on, h⟩ | ⟨off, h⟩
  · have sum : c.phase + c.phaseIncrement = BitVec.ofNat 16 ((c.phase.toNat + c.phaseIncrement.toNat) % 65536) :=
      BitVec.eq_of_toNat_eq (by simp)
    rw [h, if_pos on, sum]
  · rw [h, if_neg (Bool.eq_false_iff.mp off)]

/-- The amplitude of a channel before which `k` noise channels have stepped the LFSR from `l` (R97, R99). -/
def amplitude (l : BitVec 16) (k : Nat) (c : Channel) : Byte :=
  if c.waveform = 6#3 then (lfsrAfter (k + 1) l).extractLsb' 0 8 else (gen c.waveform c.phase l).raw

theorem gen_raw_lfsrAfter (l : BitVec 16) (k : Nat) (c : Channel) :
    (gen c.waveform c.phase (lfsrAfter k l)).raw = amplitude l k c := by
  rw [amplitude]
  split
  case isTrue noise => rw [noise, gen_noise, lfsrAfter_succ]
  case isFalse tonal =>
    obtain ⟨_, here⟩ := gen_pure tonal c.phase (lfsrAfter k l)
    obtain ⟨_, there⟩ := gen_pure tonal c.phase l
    exact Option.some.inj (here.symm.trans there)

section Sum
variable (ch : Fin 4 → Channel)

/-- How many of the listed channels below `i` step the LFSR. -/
def stepsBelow (ids : List (Fin 4)) (i : Fin 4) : Nat :=
  (ids.filter fun j => decide (j < i) && stepsLfsr (ch j)).length

/-- What the listed contributors add to the mix, each with the LFSR the ones below it have left. -/
def contributions (l : BitVec 16) (ids : List (Fin 4)) : List Int :=
  (ids.filter fun i => contributes (ch i)).map fun i => delta (amplitude l (stepsBelow ch ids i) (ch i)) (ch i).volume

variable {ch} {ids : List (Fin 4)} {i k : Fin 4}

/-- A channel's LFSR does not depend on the channels from its own on. -/
theorem stepsBelow_concat (h : i ≤ k) : stepsBelow ch (ids ++ [k]) i = stepsBelow ch ids i := by
  simp [stepsBelow, h.not_gt]

theorem stepsBelow_of_all_lt (h : ∀ j ∈ ids, j < i) :
    stepsBelow ch ids i = ((ids.map ch).filter stepsLfsr).length := by
  rw [stepsBelow, List.filter_map, List.length_map]
  exact congrArg List.length (List.filter_congr fun j hj => by simp [h j hj])

theorem contributions_concat (l : BitVec 16) (h : ∀ j ∈ ids, j < k) :
    contributions ch l (ids ++ [k]) = contributions ch l ids ++
      if contributes (ch k) then [delta (amplitude l (stepsBelow ch ids k) (ch k)) (ch k).volume] else [] := by
  have kept : ∀ i ∈ ids.filter (fun i => contributes (ch i)), stepsBelow ch (ids ++ [k]) i = stepsBelow ch ids i :=
    fun i hi => stepsBelow_concat (h i (List.mem_of_mem_filter hi)).le
  rw [contributions, List.filter_append, List.map_append, contributions]
  congr 1
  · exact List.map_congr_left fun i hi => by rw [kept i hi]
  · cases hk : contributes (ch k) with
    | false => simp [hk]
    | true => simp [hk, stepsBelow_concat le_rfl]

/-- The mix of channels in ascending order is the sum of their contributions (R141, R99). -/
theorem mixAll_sum (l : BitVec 16) (ascending : ids.Pairwise (· < ·)) :
    (mixAll l (ids.map ch)).sum = (contributions ch l ids).sum := by
  induction ids using List.reverseRecOn with
  | nil => rfl
  | append_singleton ids k ih =>
    obtain ⟨ascending, _, last⟩ := List.pairwise_append.mp ascending
    have below : ∀ j ∈ ids, j < k := fun j hj => last j hj k (List.mem_singleton_self k)
    have lfsr : (mixAll l (ids.map ch)).lfsr = lfsrAfter (stepsBelow ch ids k) l := by
      rw [stepsBelow_of_all_lt below]
      exact foldl_mixChannel_lfsr _ _
    have unfolded : mixAll l ((ids ++ [k]).map ch) = mixChannel (mixAll l (ids.map ch)) (ch k) := by
      rw [List.map_append, mixAll, List.foldl_append]
      rfl
    rw [unfolded, contributions_concat l below, List.sum_append, ← ih ascending]
    cases hk : contributes (ch k) with
    | false => simp [mixChannel_off hk]
    | true => simp [mixChannel_on hk, lfsr, gen_raw_lfsrAfter]

end Sum

/-! ### The two commands -/

theorem decode_of_sample {w : Word} (op : fieldOp w = 3#4) : decode w = .sample := by
  rw [decode, op]
  rfl

theorem Block.toList_ch (b : Block) : b.ch.toList = (List.finRange 4).map b.channel := b.ch.toList_eq_map

/-- How many of the block's channels a test picks, by channel number. -/
theorem Block.length_filter_ch (b : Block) (p : Channel → Bool) :
    (b.ch.toList.filter p).length = ((List.finRange 4).filter fun i => p (b.channel i)).length := by
  rw [b.toList_ch, List.filter_map, List.length_map]
  rfl

theorem Block.sample_out_toNat (b : Block) :
    (b.sample.out.toNat : Int) = outputValue (mixOf (mixAll b.lfsr b.ch.toList)) b.masterVolume :=
  toNat_ofInt_outputValue _ _

theorem Block.sample_out_of_le_one {b : Block} (quiet : b.masterVolume.toNat ≤ 1) : b.sample.out = 128#8 := by
  rw [Block.sample_out, outputValue_of_le_one (mixOf_mixAll_mem_Icc _ _) quiet]
  rfl

/-! ### The obligations -/

/-- Settles O25: the mix is `mixAll_sum` over channels 0 to 3, whose predicates are those of the statement. -/
theorem sampleMixesTheContributors : Obligations.SampleMixesTheContributors := by
  refine ⟨fun w => decode_of_sample, fun s => ⟨_, exec_eq .sample s, ?_⟩⟩
  intro on noisy steps raw dev n total mix
  have on_eq : on = fun i => contributes (s.block.channel i) := funext fun i => (contributes_eq _).symm
  have noisy_eq : noisy = fun i => stepsLfsr (s.block.channel i) :=
    funext fun i => congrArg (· && _) (congrFun on_eq i)
  have steps_eq : steps = stepsBelow s.block.channel (List.finRange 4) := by
    simp only [steps, noisy_eq]
    rfl
  have dev_eq : dev = fun i => delta (amplitude s.block.lfsr (stepsBelow s.block.channel (List.finRange 4) i)
      (s.block.channel i)) (s.block.channel i).volume := by
    rw [← steps_eq]
    rfl
  have count : (mixAll s.block.lfsr s.block.ch.toList).n = n := by
    rw [mixAll_n, Block.length_filter_ch, ← on_eq]
  have sum : (mixAll s.block.lfsr s.block.ch.toList).sum = total := by
    rw [Block.toList_ch, mixAll_sum _ (List.pairwise_lt_finRange 4), contributions, ← on_eq, ← dev_eq]
  have mixed : mixOf (mixAll s.block.lfsr s.block.ch.toList) = mix := by rw [mixOf, count, sum]
  refine ⟨?_, ?_, fun i => ?_, rfl, rfl⟩
  · rw [← mixed]
    exact s.block.sample_out_toNat
  · rw [noisy_eq, ← Block.length_filter_ch]
    exact foldl_mixChannel_lfsr _ _
  · rw [on_eq]
    exact (s.block.sample_channel i).trans (Channel.advancePhase_eq _)

/-- Settles O26: the ranges of R145 one after another, each from the one before. -/
theorem mixStaysInRange : Obligations.MixStaysInRange := by
  refine ⟨delta_mem_Icc, fun b mv => ?_, fun s quiet => ⟨_, exec_eq .sample s, Block.sample_out_of_le_one quiet⟩⟩
  intro acc
  have count : acc.n ≤ 4 := (mixAll_n _ _).trans_le (List.length_filter_le _ _)
  obtain ⟨sumLow, sumHigh⟩ : acc.InRange := mixAll_inRange b.lfsr b.ch.toList
  have mix := mixOf_mixAll_mem_Icc b.lfsr b.ch.toList
  have scaled := scaledMix_mem_Icc mix mv
  exact ⟨count, by omega, by omega, mix.1, mix.2, scaled.1, scaled.2, outputValue_eq mix mv⟩

/-- Settles O27: no channel contributes, so `Block.sample_of_silent` gives the block. -/
theorem silentSampleReturns128 : Obligations.SilentSampleReturns128 := by
  intro s silent
  rw [exec_eq, blockAfter, Block.sample_of_silent fun i => not_contributes (silent i)]

/-- Settles O30: the SAMPLE after SETVOL mixes the same channels with the new volume, 0 or 255. -/
theorem setVolumeShowsInTheNextSample : Obligations.SetVolumeShowsInTheNextSample := by
  refine ⟨fun w => decode_of_formatV, fun s => ⟨fun level => rfl, ⟨_, execAll_eq _ s, ?_⟩, ⟨_, execAll_eq _ s, ?_⟩⟩⟩
  · exact Block.sample_out_of_le_one (b := s.block.setVolume 0) (Nat.zero_le 1)
  · exact (s.block.setVolume 255).sample_out_toNat.trans (outputValue_full (mixOf_mixAll_mem_Icc _ _))

/-- Settles O28: the condition and the formula are the model's, and the table is evaluated. -/
theorem deviationsAreThoseListed : Obligations.DeviationsAreThoseListed := by
  refine ⟨fun c => ?_, fun _ _ => rfl, by decide⟩
  rw [contributes_eq, Bool.and_eq_true, decide_eq_true_iff]

/-- Settles O29: `out` holds the clamped value, and the product is a mix in its range times at most 255. -/
theorem outputsAreThoseListed : Obligations.OutputsAreThoseListed := by
  refine ⟨fun _ _ => rfl, fun s => ⟨_, exec_eq .sample s, s.block.sample_out_toNat, ?_⟩, by decide⟩
  exact mul_mem_Icc (mixOf_mixAll_mem_Icc _ _) (Nat.le_of_lt_succ s.block.masterVolume.isLt)

end Sys2Proof.Machine
end

section
/-!
The model-only labels (spec 60_exceptions.md R161, R163): when each is given, and what the labelled command or access does.
-/
namespace Sys2Proof.Machine

/-! ### When a label is given -/

theorem stopLabel_eq_some {ch : BitVec 8} {l : IgnoreLabel} :
    stopLabel ch = some l ↔ 4 ≤ ch.toNat ∧ .ignChRange = l := by
  rw [stopLabel, Option.ite_none_right_eq_some, Option.some.injEq]

/-- R163: the range of the sound effect is looked at before that of the channel, both before note 0. -/
theorem triggerLabel_cases (r : Roms) (ch : BitVec 8) (sfx : BitVec 15) :
    (r.numSfx ≤ sfx.toNat ∧ triggerLabel r ch sfx = some .ignSfxRange) ∨
    (sfx.toNat < r.numSfx ∧ 4 ≤ ch.toNat ∧ triggerLabel r ch sfx = some .ignChRange) ∨
    (sfx.toNat < r.numSfx ∧ ch.toNat < 4 ∧ noteClass (Roms.note r sfx.toNat 0) = .sounding ∧
      triggerLabel r ch sfx = none) ∨
    (sfx.toNat < r.numSfx ∧ ch.toNat < 4 ∧ noteClass (Roms.note r sfx.toNat 0) ≠ .sounding ∧
      triggerLabel r ch sfx = some .deadFirstNote) := by
  unfold triggerLabel
  split_ifs with outside far sounding
  · exact .inl ⟨outside, rfl⟩
  · exact .inr (.inl ⟨Nat.lt_of_not_le outside, far, rfl⟩)
  · exact .inr (.inr (.inl ⟨Nat.lt_of_not_le outside, Nat.lt_of_not_le far, sounding, rfl⟩))
  · exact .inr (.inr (.inr ⟨Nat.lt_of_not_le outside, Nat.lt_of_not_le far, sounding, rfl⟩))

theorem tickLabel_eq_some {r : Roms} {b : Block} {l : IgnoreLabel} :
    tickLabel r b = some l ↔ (∃ i, loadsDeadNote r (b.channel i) = true) ∧ .deadNote = l := by
  rw [tickLabel, Option.ite_none_right_eq_some, Option.some.injEq, Block.toList_ch, List.any_map, List.any_eq_true]
  simp

theorem busLabel_eq_some {a : Access} {l : IgnoreLabel} (h : busLabel a = some l) :
    ∃ off wd d, a = .write off wd d ∧ (off ≠ 0 ∨ wd ≠ .w32) := by
  cases a with
  | read off wd => cases h
  | write off wd d =>
    rw [busLabel, Option.ite_none_right_eq_some] at h
    obtain ⟨⟨_, other⟩, _⟩ := h
    exact ⟨off, wd, d, rfl, (not_and_or.mp other).imp_left fun shifted aligned => shifted (congrArg Fin.val aligned)⟩

/-! ### What the labelled command does -/

/-- R161: the five ignore labels. -/
theorem exec_of_ignoreLabel {i : Instr} {s : State} {l : IgnoreLabel} (label : commandLabel i s = some l)
    (ignore : l.isIgnore = true) : exec i s = .next s := by
  cases i with
  | nop | stopall | sample | setvol => cases label
  | rsvdTrig | rsvdOp5 | rsvdOp6_7 | rsvdOp8_F => rfl
  | stop ch =>
    obtain ⟨outside, _⟩ := stopLabel_eq_some.mp label
    exact exec_of_blockAfter_eq_self (Block.stop_out_of_range outside _)
  | trigger ch sfx =>
    rcases triggerLabel_cases s.roms ch sfx with ⟨sfxOutside, _⟩ | ⟨_, chOutside, _⟩ | ⟨_, _, _, unlabelled⟩ | ⟨_, _, _, dead⟩
    · exact exec_trigger_out_of_range (.inr sfxOutside)
    · exact exec_trigger_out_of_range (.inl chOutside)
    · cases label.symm.trans unlabelled
    · cases label.symm.trans dead
      cases ignore
  | tick =>
    obtain ⟨_, rfl⟩ := tickLabel_eq_some.mp label
    cases ignore

/-- R116: a TRIGGER whose note 0 does not sound leaves its channel Idle. -/
theorem Channel.trigger_active_of_not_sounding {r : Roms} {sfx : BitVec 15}
    (silent : noteClass (Roms.note r sfx.toNat 0) ≠ .sounding) (c : Channel) : (c.trigger r sfx).active = false :=
  decide_eq_false silent

/-- R121: a TICK that loads a Dead note stops the voice it loads it into. -/
theorem Channel.tick_of_loadsDeadNote {r : Roms} {c : Channel} (h : loadsDeadNote r c = true) :
    c.active = true ∧ (c.tick r).active = false := by
  simp only [loadsDeadNote, Bool.and_eq_true, Bool.not_eq_true', decide_eq_false_iff_not] at h
  obtain ⟨⟨alive, out⟩, dead⟩ := h
  refine ⟨alive, ?_⟩
  rw [Channel.tick_time_out alive out]
  rcases Channel.advance_cases r c.countFrame.clearCount with ⟨_, stopped⟩ | ⟨t, next, loaded⟩
  · rw [stopped, Channel.stop_active]
  · rw [Channel.clearCount_sfx, Channel.clearCount_looping, Channel.clearCount_noteIndex, Channel.countFrame_sfx,
      Channel.countFrame_looping, Channel.countFrame_noteIndex] at next
    simp only [next, decide_eq_true_eq] at dead
    rw [loaded, Channel.loadNote_active]
    exact decide_eq_false (not_not_intro dead)

/-! ### The obligation -/

/-- Settles O32: a label gives its condition back, and the condition decides what the command does. -/
theorem labelsNameWhatHappened : Obligations.LabelsNameWhatHappened := by
  refine ⟨fun i s l => exec_of_ignoreLabel, fun s ch sfx label => ?_, fun s label => ?_,
    fun s ch sfx outside _ => if_pos outside, fun s c a label => ?_⟩
  · rcases triggerLabel_cases s.roms ch sfx with ⟨_, other⟩ | ⟨_, _, other⟩ | ⟨_, _, _, other⟩ | ⟨inside, near, silent, _⟩
    · cases label.symm.trans other
    · cases label.symm.trans other
    · cases label.symm.trans other
    · refine ⟨⟨ch.toNat, near⟩, _, rfl, exec_eq _ s, ?_⟩
      rw [State.withBlock_block, blockAfter, Block.trigger_in_range (i := ⟨ch.toNat, near⟩) rfl inside,
        Block.updateChannel_channel_same]
      exact Channel.trigger_active_of_not_sounding silent _
  · obtain ⟨⟨i, dead⟩, _⟩ := tickLabel_eq_some.mp label
    obtain ⟨alive, stopped⟩ := Channel.tick_of_loadsDeadNote dead
    refine ⟨i, _, exec_eq .tick s, alive, ?_⟩
    rwa [State.withBlock_block, blockAfter, Block.tick_channel]
  · obtain ⟨off, wd, d, rfl, other⟩ := busLabel_eq_some label
    exact State.accept_other_write other s c d

end Sys2Proof.Machine
end

section
/-!
Steps once the block has been reset (spec 60_exceptions.md R160, R163): every step completes and serves the oldest item of
the agent granted, so as many steps as there are items pending serve them all.
-/
namespace Sys2Proof.Machine

/-! ### What serving an access makes of the state -/

/-- The block after an access: a command write with reset released runs its command, any other access leaves the block. -/
def State.blockAfterAccess (s : State) (a : Access) : Block :=
  match a.command, s.power with
  | some w, .released => blockAfter (decode w) s.roms s.block
  | _, _ => s.block

/-- What a context has read last, after an access of its own. -/
def State.readDataAfterAccess (s : State) (c : Context) : Access → Option Word
  | .read off wd => some (s.readValue off wd)
  | .write _ _ _ => (s.port c).readData

/-- The state after an access that is already off its list: `step_of_context` ties it to the step. -/
def State.afterAccess (s : State) (c : Context) (a : Access) : State :=
  (s.setPort c { s.port c with readData := s.readDataAfterAccess c a }).withBlock (s.blockAfterAccess a)

section Rules
variable {s : State} {c : Context} {a : Access} {rest : List Access}

@[simp] theorem State.setPort_self (s : State) (c : Context) : s.setPort c (s.port c) = s := by
  cases c <;> rfl

@[simp] theorem State.afterAccess_block (s : State) (c : Context) (a : Access) :
    (s.afterAccess c a).block = s.blockAfterAccess a := rfl

@[simp] theorem State.afterAccess_power (s : State) (c : Context) (a : Access) : (s.afterAccess c a).power = s.power := by
  rw [afterAccess, withBlock_power, setPort_power]

@[simp] theorem State.afterAccess_platform (s : State) (c : Context) (a : Access) :
    (s.afterAccess c a).platform = s.platform := by
  rw [afterAccess, withBlock_platform, setPort_platform]

@[simp] theorem State.afterAccess_port (s : State) (c : Context) (a : Access) :
    (s.afterAccess c a).port c = { s.port c with readData := s.readDataAfterAccess c a } := by
  rw [afterAccess, withBlock_port, setPort_port]

theorem State.afterAccess_port_ne (s : State) {c d : Context} (a : Access) (h : d ≠ c) :
    (s.afterAccess c a).port d = s.port d := by
  rw [afterAccess, withBlock_port, setPort_port_ne _ _ _ _ h]

/-- Serving an access of one context leaves the other's end of the window (20_memory.md R63). -/
theorem State.port_afterAccess_popPort_ne (s : State) {c d : Context} (a : Access) (rest : List Access) (h : d ≠ c) :
    ((s.popPort c rest).afterAccess c a).port d = s.port d := by
  rw [afterAccess_port_ne _ _ h, popPort_port_ne _ _ _ _ h]

theorem State.blockAfterAccess_of_commandWrite (hp : s.power = .released) (w : Word) :
    s.blockAfterAccess (commandWrite w) = blockAfter (decode w) s.roms s.block := by
  have command : (commandWrite w).command = some w := command_eq_some.mpr rfl
  rw [blockAfterAccess, command, hp]

/-- Only a command write with reset released acts on the block (20_memory.md R59, R60, 70_reset_and_hazards.md R181). -/
theorem State.blockAfterAccess_of_quiet (quiet : (∀ w, a ≠ commandWrite w) ∨ s.power ≠ .released) :
    s.blockAfterAccess a = s.block := by
  unfold blockAfterAccess
  split
  case h_1 w command hp => exact absurd quiet (not_or.mpr ⟨fun h => h w (command_eq_some.mp command), not_not.mpr hp⟩)
  case h_2 => rfl

theorem State.afterAccess_of_commandWrite (hp : s.power = .released) (c : Context) (w : Word) :
    s.afterAccess c (commandWrite w) = s.withBlock (blockAfter (decode w) s.roms s.block) := by
  have readData : s.readDataAfterAccess c (commandWrite w) = (s.port c).readData := rfl
  rw [afterAccess, blockAfterAccess_of_commandWrite hp, readData, setPort_self]

theorem State.afterAccess_of_quiet (quiet : (∀ w, a ≠ commandWrite w) ∨ s.power ≠ .released) (c : Context) :
    s.afterAccess c a = s.setPort c { s.port c with readData := s.readDataAfterAccess c a } := by
  rw [afterAccess, blockAfterAccess_of_quiet quiet, ← setPort_block, withBlock_self]

/-- While reset is asserted a command write is ignored (70_reset_and_hazards.md R181). -/
theorem State.accept_commandWrite_of_asserted (hp : s.power = .asserted) (c : Context) (w : Word) :
    s.accept c (commandWrite w) = .served s := by
  have command : (commandWrite w).command = some w := command_eq_some.mpr rfl
  simp only [State.accept, command, hp]

/-- Once the block has been reset, an access runs its command or completes at once, and is never refused. -/
theorem State.accept_once_reset (reset : s.power ≠ .unreset) (c : Context) (a : Access) :
    (∃ w, a = commandWrite w ∧ s.power = .released ∧ s.accept c a = .command w s) ∨
    s.accept c a = .served (s.afterAccess c a) := by
  cases a with
  | read off wd =>
    have quiet : ∀ w, Access.read off wd ≠ commandWrite w := fun _ => Access.noConfusion
    rw [afterAccess_of_quiet (.inl quiet)]
    exact .inr (accept_read reset c off wd)
  | write off wd d =>
    have ignored (quiet : (∀ w, Access.write off wd d ≠ commandWrite w) ∨ s.power ≠ .released) :
        s.afterAccess c (.write off wd d) = s := (afterAccess_of_quiet quiet c).trans (s.setPort_self c)
    by_cases command : off = 0 ∧ wd = .w32
    · obtain ⟨rfl, rfl⟩ := command
      cases hp : s.power with
      | unreset => exact absurd hp reset
      | released => exact .inl ⟨d, rfl, rfl, accept_commandWrite hp c d⟩
      | asserted =>
        rw [ignored (.inr (by simp [hp]))]
        exact .inr (accept_commandWrite_of_asserted hp c d)
    · have quiet (w : Word) : Access.write off wd d ≠ commandWrite w := fun h =>
        have ⟨aligned, wide, _⟩ := Access.write.inj h
        command ⟨aligned, wide⟩
      rw [ignored (.inl quiet)]
      exact .inr (accept_other_write (not_and_or.mp command) s c d)

/-- Once the block has been reset, a step with a context granted is its oldest access served. -/
theorem step_of_context (reset : s.power ≠ .unreset) (hg : s.granted = some (.context c))
    (hp : (s.port c).pending = a :: rest) : step s = .next ((s.popPort c rest).afterAccess c a) := by
  have popReset : (s.popPort c rest).power ≠ .unreset := by rwa [State.popPort_power]
  rw [step, fetch_of_granted_context hg hp]
  rcases State.accept_once_reset popReset c a with ⟨w, rfl, released, h⟩ | h <;> rw [h]
  rw [State.afterAccess_of_commandWrite released]
  exact exec_eq _ _

/-! ### Edges of the reset input -/

/-- A reset of the block drops nothing that is issued (log 22). -/
theorem State.resetEdge_keeps_lists (s : State) (e : ResetEdge) :
    (s.resetEdge e).platform = s.platform ∧ (s.resetEdge e).sample = s.sample ∧ (s.resetEdge e).frame = s.frame := by
  cases e with
  | assert => exact ⟨rfl, rfl, rfl⟩
  | release => rcases s.resetEdge_release_cases with ⟨_, h⟩ | ⟨_, h⟩ <;> rw [h] <;> exact ⟨rfl, rfl, rfl⟩

/-- No edge takes the block back before its first reset (70_reset_and_hazards.md R182). -/
theorem State.resetEdge_power_ne_unreset (reset : s.power ≠ .unreset) (e : ResetEdge) :
    (s.resetEdge e).power ≠ .unreset := by
  cases e with
  | assert => exact Power.noConfusion
  | release =>
    rcases s.resetEdge_release_cases with ⟨_, h⟩ | ⟨_, h⟩ <;> rw [h]
    · exact Power.noConfusion
    · exact reset

/-! ### Counting what is pending -/

theorem State.pendingCount_eq (s : State) :
    s.pendingCount = (s.port .sample).pending.length + (s.port .frame).pending.length + s.platform.length := rfl

theorem State.pendingCount_eq_zero_iff : s.pendingCount = 0 ↔ s.granted = none := by
  rw [granted, pickAgent_eq_none]
  simp [pendingCount, candidates, and_assoc]

theorem State.pendingCount_afterAccess_popPort (hp : (s.port c).pending = a :: rest) :
    ((s.popPort c rest).afterAccess c a).pendingCount + 1 = s.pendingCount := by
  have others (d : Context) (h : d ≠ c) := s.port_afterAccess_popPort_ne a rest h
  cases c <;> simp [pendingCount_eq, others, hp] <;> omega

theorem State.pendingCount_resetEdge_popEdge {e : ResetEdge} {edges : List ResetEdge} (hp : s.platform = e :: edges) :
    ((s.popEdge edges).resetEdge e).pendingCount + 1 = s.pendingCount := by
  obtain ⟨platform, sample, frame⟩ := (s.popEdge edges).resetEdge_keeps_lists e
  rw [pendingCount, pendingCount, platform, sample, frame, hp]
  rfl

/-! ### Steps and runs -/

/-- Once the block has been reset, a step completes, leaves it reset, and serves one item if any is pending. -/
theorem step_once_reset (reset : s.power ≠ .unreset) :
    ∃ t, step s = .next t ∧ t.power ≠ .unreset ∧ t.pendingCount = s.pendingCount - 1 := by
  rcases step_by_agent s with ⟨hg, h⟩ | ⟨e, edges, _, hp, h⟩ | ⟨c, a, rest, hg, hp, _⟩
  · exact ⟨s, h, reset, by rw [State.pendingCount_eq_zero_iff.mpr hg]⟩
  · exact ⟨_, h, State.resetEdge_power_ne_unreset (s := s.popEdge edges) reset e,
      Nat.eq_sub_of_add_eq (State.pendingCount_resetEdge_popEdge hp)⟩
  · refine ⟨_, step_of_context reset hg hp, ?_, Nat.eq_sub_of_add_eq (State.pendingCount_afterAccess_popPort hp)⟩
    rwa [State.afterAccess_power, State.popPort_power]

theorem run_succ_of_step {u : State} (h : step s = .next u) (n : Nat) :
    Host.Core.run Sys2Proof.core (n + 1) s = Host.Core.run Sys2Proof.core n u := by
  have coreStep : Sys2Proof.core.step s = .next u := h
  simp only [Host.Core.run, coreStep]

/-- The run of any number of steps serves as many items as there are, at most. -/
theorem run_once_reset (n : Nat) (reset : s.power ≠ .unreset) :
    ∃ t : State, Host.Core.run Sys2Proof.core n s = .next t ∧ t.pendingCount = s.pendingCount - n := by
  induction n generalizing s with
  | zero => exact ⟨s, rfl, rfl⟩
  | succ n ih =>
    obtain ⟨u, stepped, resetAfter, served⟩ := step_once_reset reset
    obtain ⟨t, ran, left⟩ := ih resetAfter
    exact ⟨t, (run_succ_of_step stepped n).trans ran, by omega⟩

end Rules

/-! ### The obligations -/

/-- Settles O47: by `step_once_reset`, and there is no fault to answer. -/
theorem everyStepCompletesAfterReset : Obligations.EveryStepCompletesAfterReset := by
  refine ⟨fun s reset => ?_, fun s f => nomatch f⟩
  obtain ⟨t, stepped, resetAfter, _⟩ := step_once_reset reset
  exact ⟨t, stepped, resetAfter⟩

/-- Settles O54: the step is the edge or the access of the agent granted, and each step of a run serves one item. -/
theorem noAccessIsDropped : Obligations.NoAccessIsDropped := by
  refine ⟨fun s reset nonempty => ?_, fun s reset => ?_⟩
  · rcases step_by_agent s with ⟨hg, _⟩ | ⟨e, rest, hg, hp, h⟩ | ⟨c, a, rest, hg, hp, _⟩
    · exact absurd (State.pendingCount_eq_zero_iff.mpr hg) nonempty
    · exact .inl ⟨e, rest, _, hg, hp, h, rfl, State.resetEdge_keeps_lists _ e⟩
    · refine .inr ⟨c, a, rest, _, hg, hp, step_of_context reset hg hp, ?_, fun d other => ?_, ?_, fun w hw released => ?_,
        fun off wd hr => ?_, fun quiet => ?_⟩
      · rw [State.afterAccess_port, State.popPort_port]
      · exact State.port_afterAccess_popPort_ne s a rest other
      · rw [State.afterAccess_platform, State.popPort_platform]
      · rw [hw, State.afterAccess_of_commandWrite (by rwa [State.popPort_power]), exec_eq]
      · rw [State.afterAccess_port, hr]
        rfl
      · rw [State.afterAccess_block, State.blockAfterAccess_of_quiet, State.popPort_block]
        exact quiet.imp_right fun held => by simp [held]
  · obtain ⟨t, ran, left⟩ := run_once_reset s.pendingCount reset
    exact ⟨t, ran, left.trans (Nat.sub_self _)⟩

end Sys2Proof.Machine
end

section
/-!
Reset, and a voice in its first note (spec 70_reset_and_hazards.md R180 to R183, R189): the two reset edges of boot,
what reaches the block before its first reset and while reset is asserted, and the phase under TRIGGER and a run of SAMPLEs.
-/
namespace Sys2Proof.Machine

open Function (iterate_succ_apply iterate_succ_apply')

/-! ### Many SAMPLEs of one channel -/

section Samples
variable {r : Roms} {c : Channel}

/-- A command that makes `g` of channel `k` whatever the block, repeated `n` times, iterates `g` on it. -/
theorem blockAfterAll_replicate_channel {i : Instr} {g : Channel → Channel} {k : Fin 4}
    (once : ∀ b, (blockAfter i r b).channel k = g (b.channel k)) (n : Nat) (b : Block) :
    (blockAfterAll r (List.replicate n i) b).channel k = g^[n] (b.channel k) := by
  induction n generalizing b with
  | zero => rfl
  | succ n ih => rw [List.replicate_succ, blockAfterAll, ih, once, iterate_succ_apply]

/-- A contributing channel still contributes after a SAMPLE, so its phase gains one increment each time (R141). -/
theorem Channel.iterate_advancePhase (on : contributes c = true) (n : Nat) :
    Channel.advancePhase^[n] c = { c with phase := c.phase + BitVec.ofNat 16 n * c.phaseIncrement } := by
  induction n with
  | zero => simp
  | succ n ih =>
    have stillOn : contributes (Channel.advancePhase^[n] c) = true := by
      rw [ih]
      exact on
    rw [iterate_succ_apply', Channel.advancePhase, if_pos stillOn, ih, BitVec.ofNat_add, BitVec.add_mul, BitVec.one_mul,
      BitVec.add_assoc]

theorem Channel.iterate_advancePhase_phase_toNat (on : contributes c = true) (start : c.phase = 0#16) (n : Nat) :
    (Channel.advancePhase^[n] c).phase.toNat = n * c.phaseIncrement.toNat % 65536 := by
  rw [iterate_advancePhase on, start, BitVec.zero_add, BitVec.toNat_mul, BitVec.toNat_ofNat, Nat.mod_mul_mod]

/-- A Sounding first note is active and audible, so its channel contributes to the next SAMPLE (R111, R116). -/
theorem Channel.contributes_trigger {sfx : BitVec 15} (sounding : noteClass (Roms.note r sfx.toNat 0) = .sounding)
    (c : Channel) : contributes (c.trigger r sfx) = true :=
  have ⟨loud, _⟩ := fields_of_noteClass_sounding sounding
  contributes_iff.mpr ⟨activeAfterTrigger_iff.mpr sounding, loud⟩

/-- R116 and R141: after a TRIGGER and `n` SAMPLEs its channel is the triggered one, advanced `n` times. -/
theorem blockAfterAll_trigger_samples_channel {ch : BitVec 8} {sfx : BitVec 15} {k : Fin 4} (hch : ch.toNat = k.val)
    (hsfx : sfx.toNat < r.numSfx) (n : Nat) (b : Block) :
    (blockAfterAll r (.trigger ch sfx :: List.replicate n .sample) b).channel k =
      Channel.advancePhase^[n] ((b.channel k).trigger r sfx) := by
  have sampled (d : Block) : (blockAfter .sample r d).channel k = (d.channel k).advancePhase := d.sample_channel k
  rw [blockAfterAll, blockAfterAll_replicate_channel sampled, blockAfter, Block.trigger_in_range hch hsfx,
    Block.updateChannel_channel_same]

end Samples

/-! ### The reset input -/

section ResetInput
variable {s : State}

/-- R181: while reset is asserted OUT shows the midpoint, whatever the block holds. -/
theorem State.outValue_of_asserted (held : s.power = .asserted) : s.outValue = 128#8 := by
  simp [State.outValue, held]

/-- R182: a command has no meaning before the first reset. -/
theorem State.accept_commandWrite_of_unreset (before : s.power = .unreset) (c : Context) (w : Word) :
    s.accept c (commandWrite w) = .refuse .beforeReset := by
  have command : (commandWrite w).command = some w := command_eq_some.mpr rfl
  simp only [State.accept, command, before]

/-- R182: a read that touches OUT has no meaning before the first reset (log 12). -/
theorem State.accept_read_of_unreset (before : s.power = .unreset) {off : Fin 8} {wd : Width}
    (touches : 4 < off.val + wd.bytes) (c : Context) : s.accept c (.read off wd) = .refuse .beforeReset :=
  if_pos ⟨before, decide_eq_true touches⟩

end ResetInput

/-! ### The obligations -/

/-- Settles O31: the TRIGGER makes the channel a contributor with phase 0, and each SAMPLE adds its increment. -/
theorem triggerThenSamplesFollowNoteZero : Obligations.TriggerThenSamplesFollowNoteZero := by
  intro s ch sfx i n hch hsfx sounding
  have on := Channel.contributes_trigger sounding (s.block.channel i)
  have increment : ((s.block.channel i).trigger s.roms sfx).phaseIncrement =
      phaseInc s.roms (notePitch (Roms.note s.roms sfx.toNat 0)) := if_pos sounding
  refine ⟨_, execAll_eq _ s, ?_⟩
  rw [State.withBlock_block, blockAfterAll_trigger_samples_channel hch hsfx,
    Channel.iterate_advancePhase_phase_toNat on rfl, increment, Channel.iterate_advancePhase on]
  exact ⟨rfl, rfl, rfl, activeAfterTrigger_iff.mpr sounding, rfl, rfl⟩

/-- Settles O49: the write is taken and ignored, and the read is answered with OUT's value under reset. -/
theorem resetHoldsOffCommands : Obligations.ResetHoldsOffCommands := by
  intro s c rest held hg
  have heldAfter : (s.popPort c rest).power = .asserted := by rw [State.popPort_power, held]
  refine ⟨fun w hp => ?_, fun wd hp => ⟨_, step_of_context (by simp [held]) hg hp, ?_, ?_, ?_⟩⟩
  · rw [step, fetch_of_granted_context hg hp, State.accept_commandWrite_of_asserted heldAfter]
  · rw [State.afterAccess_port, State.readDataAfterAccess, State.readValue_out, State.outValue_of_asserted heldAfter]
    rfl
  · rw [State.afterAccess_block, State.blockAfterAccess_of_quiet (.inr (by simp [held])), State.popPort_block]
  · rw [State.afterAccess_power, heldAfter]

/-- Settles O42: at boot only the platform has anything pending, so the two steps are its two edges. -/
theorem bootReachesTheResetState : Obligations.BootReachesTheResetState := by
  intro r
  have asserted := step_of_granted_platform (s := State.booting r) (e := .assert) rfl rfl
  have released := step_of_granted_platform (s := ((State.booting r).popEdge [.release]).resetEdge .assert)
    (e := .release) rfl rfl
  rw [run_succ_of_step asserted, run_succ_of_step released]
  rfl

/-- Settles O48: both kinds of access are refused when they are accepted, so the step is refused. -/
theorem commandsAndOutReadsAreRefusedBeforeTheFirstReset :
    Obligations.CommandsAndOutReadsAreRefusedBeforeTheFirstReset := by
  refine ⟨rfl, rfl, fun s c a rest before hg hp kind => ?_⟩
  have beforeAfter : (s.popPort c rest).power = .unreset := by rw [State.popPort_power, before]
  have refused : (s.popPort c rest).accept c a = .refuse .beforeReset := by
    rcases kind with ⟨w, rfl⟩ | ⟨off, wd, rfl, touches⟩
    · exact State.accept_commandWrite_of_unreset beforeAfter c w
    · exact State.accept_read_of_unreset beforeAfter touches c
  rw [step, fetch_of_granted_context hg hp, refused]

end Sys2Proof.Machine
end
